-- ==== Sys2Proof/Word.lean ====
section
/-! DEFINITION. The plain types of the block: bytes, 16-bit words, register indices, and the shapes of
the register file, the call stack and the framebuffer. -/

namespace Sys2Proof

/-- An 8-bit value: a byte of Memory, a V register, a timer (R21, R35, R36, R43). -/
abbrev Byte := BitVec 8

/-- A 16-bit value: PC, I, a stack entry, an instruction word, the key mask (R25, R29, R31, R39, R90). -/
abbrev Word := BitVec 16

/-- The index of one of the sixteen V registers (R21); also the 4-bit register `WAIT_X` (R41). -/
abbrev RegIdx := Fin 16

/-- The register file `V[0..15]` (R21). -/
abbrev RegFile := Vector Byte 16

/-- The call stack's entries `S[0..15]` (R31). -/
abbrev StackFile := Vector Word 16

/-- The framebuffer `FB[c, r]`: 32 rows, top row first, each of 64 cells, left cell first; `true` is set
(R42, R215). -/
abbrev FrameBuffer := Vector (Vector Bool 64) 32

/-- `VF`, the flag register, is `V[15]` (R21, R22). -/
def regF : RegIdx := 15

/-- Every cell unset (R42, R201). -/
def FrameBuffer.empty : FrameBuffer := Vector.replicate 32 (Vector.replicate 64 false)

end Sys2Proof
end

