-- ==== Sys2Proof/Config.lean ====
section
/-! DEFINITION. What an implementation fixes: the sizes of R6, the types of the parameters R6 lets a
model take as arguments (their chosen values stand in Machine/Params.lean), and the values the spec
leaves free, which have no body here, so that nothing can be proved of them. -/

namespace Sys2Proof

/-- `MEM_SIZE`: 4096 bytes, addresses 0 to 4095 (R6, R43). -/
abbrev Config.memSize : Nat := 4096

/-- `STACK_DEPTH`: 16 entries (R6, R31). -/
abbrev Config.stackDepth : Nat := 16

/-- `FONT_SIZE`: 80 bytes at address 0 (R6, R44). -/
abbrev Config.fontSize : Nat := 80

/-- `PROGRAM_BASE`: 512 (R6, R300). -/
abbrev Config.programBase : Nat := 512

/-- `GLYPH_BYTES`: 5 (R6, R182). -/
abbrev Config.glyphBytes : Nat := 5

/-- Parameter `FLAG_ORDER` (R6, D13): the order of the flag write against the result write in 8XY5 to
8XYE. -/
inductive Config.FlagOrder where
  /-- the default: the statements of the rule in their written order, each reading what the one before left -/
  | sequential
  /-- the variant: operands are read before any write and VF is written last -/
  | snapshot
  deriving DecidableEq, Repr

/-- Parameter `OOR_POLICY` (R6, D9): an access to an address of 4096 or more. -/
inductive Config.OorPolicy where
  /-- the default: `AddressOutOfRange` (R64) -/
  | fault
  /-- the variant: addresses are taken modulo 4096 -/
  | wrap4096
  deriving DecidableEq, Repr

/-- Parameter `KEY_OOR_POLICY` (R6, D17): a key index above 15 in EX9E and EXA1. -/
inductive Config.KeyOorPolicy where
  /-- the default: such a key is not pressed (R233, R234) -/
  | notPressed
  /-- the variant: the machine stops -/
  | fault
  /-- the variant: the low nibble names the key -/
  | lowNibble
  deriving DecidableEq, Repr

/-- The parameters of R6 with their default values. `FONT` and the free draws `rand8` are apart: the
first is a table in Machine/Params.lean, the second `Config.rand8`. -/
structure Config.Params where
  flagOrder : Config.FlagOrder := .sequential
  oorPolicy : Config.OorPolicy := .fault
  keyOorPolicy : Config.KeyOorPolicy := .notPressed
  /-- `TICK_RESET_ON_FX15` (D3): whether FX15 also restarts the timer interval -/
  tickResetOnFx15 : Bool := false
  /-- `RESET_ARBITRARY` (D20, R48): whether V, I, DT, ST and FB are free at reset -/
  resetArbitrary : Bool := false
  deriving DecidableEq, Repr

/-- The state elements that `RESET_ARBITRARY` lets a reset leave free (R48). -/
structure Config.ResetValues where
  v : RegFile
  i : Word
  dt : Byte
  st : Byte
  fb : FrameBuffer
  deriving DecidableEq, Repr, Inhabited

/-- FREE VALUE (log 8): the byte of the n-th random draw of CXNN. The spec admits every value and no
relation between two draws (R13, R163, D18). -/
opaque Config.rand8 : Nat → Byte

/-- FREE VALUE (log 3): how much host time passes before the Step call made as transaction number n, for
a call the pending list does not give. A natural number, so that `now` never decreases (R312). -/
opaque Config.elapsed : Nat → Nat

/-- FREE VALUE (log 3): `ticks_per_60hz` of that same call, a natural number (R110, R312). -/
opaque Config.ticks : Nat → Nat

/-- FREE VALUE (log 13): what a reset made as transaction number n leaves under `RESET_ARBITRARY`
(R48). -/
opaque Config.arbitraryReset : Nat → Config.ResetValues

end Sys2Proof
end

