-- ==== Sys2Proof/Syntax.lean ====
section
/-! DEFINITION. The 34 instructions of the opcode map (R92), one constructor per row of
spec/opcode_table.json, with the operand fields of R91 and R94. -/

namespace Sys2Proof

/-- One constructor per row of R92. `x` and `y` are register indices, `nn` an 8-bit immediate, `nnn` a
12-bit immediate and `n` a row count 0 to 15 (R15, R93, R94). -/
inductive Instr where
  /-- 00E0 CLS (R201) -/
  | cls
  /-- 00EE RET (R130) -/
  | ret
  /-- 1NNN JP nnn (R131) -/
  | jp (nnn : BitVec 12)
  /-- 2NNN CALL nnn (R132) -/
  | call (nnn : BitVec 12)
  /-- 3XNN SE Vx, nn (R133) -/
  | seImm (x : RegIdx) (nn : Byte)
  /-- 4XNN SNE Vx, nn (R134) -/
  | sneImm (x : RegIdx) (nn : Byte)
  /-- 5XY0 SE Vx, Vy (R135) -/
  | seReg (x y : RegIdx)
  /-- 6XNN LD Vx, nn (R152) -/
  | ldImm (x : RegIdx) (nn : Byte)
  /-- 7XNN ADD Vx, nn (R153) -/
  | addImm (x : RegIdx) (nn : Byte)
  /-- 8XY0 LD Vx, Vy (R154) -/
  | ldReg (x y : RegIdx)
  /-- 8XY1 OR Vx, Vy (R155) -/
  | orReg (x y : RegIdx)
  /-- 8XY2 AND Vx, Vy (R156) -/
  | andReg (x y : RegIdx)
  /-- 8XY3 XOR Vx, Vy (R157) -/
  | xorReg (x y : RegIdx)
  /-- 8XY4 ADD Vx, Vy (R158) -/
  | addReg (x y : RegIdx)
  /-- 8XY5 SUB Vx, Vy (R159) -/
  | sub (x y : RegIdx)
  /-- 8XY6 SHR Vx; the Y field is decoded and not used (R160, R94) -/
  | shr (x y : RegIdx)
  /-- 8XY7 SUBN Vx, Vy (R161) -/
  | subn (x y : RegIdx)
  /-- 8XYE SHL Vx; the Y field is decoded and not used (R162, R94) -/
  | shl (x y : RegIdx)
  /-- 9XY0 SNE Vx, Vy (R136) -/
  | sneReg (x y : RegIdx)
  /-- ANNN LD I, nnn (R180) -/
  | ldI (nnn : BitVec 12)
  /-- BNNN JP V0, nnn (R137) -/
  | jpV0 (nnn : BitVec 12)
  /-- CXNN RND Vx, nn (R163) -/
  | rnd (x : RegIdx) (nn : Byte)
  /-- DXYN DRW Vx, Vy, n (R202) -/
  | drw (x y : RegIdx) (n : Fin 16)
  /-- EX9E SKP Vx (R233) -/
  | skp (x : RegIdx)
  /-- EXA1 SKNP Vx (R234) -/
  | sknp (x : RegIdx)
  /-- FX07 LD Vx, DT (R230) -/
  | ldVxDt (x : RegIdx)
  /-- FX0A LD Vx, K (R235) -/
  | ldVxK (x : RegIdx)
  /-- FX15 LD DT, Vx (R231) -/
  | ldDtVx (x : RegIdx)
  /-- FX18 LD ST, Vx (R232) -/
  | ldStVx (x : RegIdx)
  /-- FX1E ADD I, Vx (R181) -/
  | addI (x : RegIdx)
  /-- FX29 LD F, Vx (R182) -/
  | ldF (x : RegIdx)
  /-- FX33 LD B, Vx (R183) -/
  | ldB (x : RegIdx)
  /-- FX55 LD [I], Vx (R184) -/
  | ldMemVx (x : RegIdx)
  /-- FX65 LD Vx, [I] (R185) -/
  | ldVxMem (x : RegIdx)
  deriving DecidableEq, Repr

end Sys2Proof
end

