-- ==== Sys2Proof/Decode.lean ====
section
/-! DEFINITION. Decoding (R90 to R97) and the encoder. A word is decoded by its top nibble and then, in
the groups 0, 5, 8, 9, E and F, by its selector (R95); every word that matches no row is rejected as an
unsupported opcode (R96). -/

namespace Sys2Proof

/-- Bits `lo + width - 1` down to `lo` of the word, as a natural number (R8). -/
def bitField (w : Word) (lo width : Nat) : Nat := w.toNat / 2 ^ lo % 2 ^ width

/-- `op = w[15:12]` (R15). -/
def opField (w : Word) : Nat := bitField w 12 4

/-- `X = w[11:8]` (R15, R94). -/
def xField (w : Word) : RegIdx := ⟨bitField w 8 4, Nat.mod_lt _ (by decide)⟩

/-- `Y = w[7:4]` (R15, R94). -/
def yField (w : Word) : RegIdx := ⟨bitField w 4 4, Nat.mod_lt _ (by decide)⟩

/-- `N = w[3:0]` (R15, R93). -/
def nField (w : Word) : Fin 16 := ⟨bitField w 0 4, Nat.mod_lt _ (by decide)⟩

/-- `NN = w[7:0]` (R15, R93). -/
def nnField (w : Word) : Byte := BitVec.ofNat 8 (bitField w 0 8)

/-- `NNN = w[11:0]` (R15, R93). -/
def nnnField (w : Word) : BitVec 12 := BitVec.ofNat 12 (bitField w 0 12)

/-- Group 0: the selector is `w[11:0]` (R95). -/
def decodeGroup0 (w : Word) : Option Instr :=
  match bitField w 0 12 with
  | 0x0E0 => some .cls
  | 0x0EE => some .ret
  | _ => none

/-- Group 5: the selector is `w[3:0]` (R95; C6, D19: only 0 is legal). -/
def decodeGroup5 (w : Word) : Option Instr :=
  match bitField w 0 4 with
  | 0x0 => some (.seReg (xField w) (yField w))
  | _ => none

/-- Group 8: the selector is `w[3:0]` (R95). -/
def decodeGroup8 (w : Word) : Option Instr :=
  match bitField w 0 4 with
  | 0x0 => some (.ldReg (xField w) (yField w))
  | 0x1 => some (.orReg (xField w) (yField w))
  | 0x2 => some (.andReg (xField w) (yField w))
  | 0x3 => some (.xorReg (xField w) (yField w))
  | 0x4 => some (.addReg (xField w) (yField w))
  | 0x5 => some (.sub (xField w) (yField w))
  | 0x6 => some (.shr (xField w) (yField w))
  | 0x7 => some (.subn (xField w) (yField w))
  | 0xE => some (.shl (xField w) (yField w))
  | _ => none

/-- Group 9: the selector is `w[3:0]` (R95; C6, D19: only 0 is legal). -/
def decodeGroup9 (w : Word) : Option Instr :=
  match bitField w 0 4 with
  | 0x0 => some (.sneReg (xField w) (yField w))
  | _ => none

/-- Group E: the selector is `w[7:0]` (R95). -/
def decodeGroupE (w : Word) : Option Instr :=
  match bitField w 0 8 with
  | 0x9E => some (.skp (xField w))
  | 0xA1 => some (.sknp (xField w))
  | _ => none

/-- Group F: the selector is `w[7:0]` (R95). -/
def decodeGroupF (w : Word) : Option Instr :=
  match bitField w 0 8 with
  | 0x07 => some (.ldVxDt (xField w))
  | 0x0A => some (.ldVxK (xField w))
  | 0x15 => some (.ldDtVx (xField w))
  | 0x18 => some (.ldStVx (xField w))
  | 0x1E => some (.addI (xField w))
  | 0x29 => some (.ldF (xField w))
  | 0x33 => some (.ldB (xField w))
  | 0x55 => some (.ldMemVx (xField w))
  | 0x65 => some (.ldVxMem (xField w))
  | _ => none

/-- The instruction a word stands for; none when no row of R92 matches (R95, R96). Decoding reads only
the word. -/
def decodeWord (w : Word) : Option Instr :=
  match opField w with
  | 0x0 => decodeGroup0 w
  | 0x1 => some (.jp (nnnField w))
  | 0x2 => some (.call (nnnField w))
  | 0x3 => some (.seImm (xField w) (nnField w))
  | 0x4 => some (.sneImm (xField w) (nnField w))
  | 0x5 => decodeGroup5 w
  | 0x6 => some (.ldImm (xField w) (nnField w))
  | 0x7 => some (.addImm (xField w) (nnField w))
  | 0x8 => decodeGroup8 w
  | 0x9 => decodeGroup9 w
  | 0xA => some (.ldI (nnnField w))
  | 0xB => some (.jpV0 (nnnField w))
  | 0xC => some (.rnd (xField w) (nnField w))
  | 0xD => some (.drw (xField w) (yField w) (nField w))
  | 0xE => decodeGroupE w
  | 0xF => decodeGroupF w
  | _ => none

/-- `a : b`, the byte `a` in the high bits (R8): two bytes of Memory make a big-endian word (R63). -/
def wordOfBytes (hi lo : Byte) : Word := BitVec.ofNat 16 (hi.toNat * 256 + lo.toNat)

/-- The two bytes of a word in the order they stand in Memory, the high byte first (R63). -/
def bytesOfWord (w : Word) : List Byte := [BitVec.ofNat 8 (bitField w 8 8), BitVec.ofNat 8 (bitField w 0 8)]

/-- Why bytes are no instruction. -/
inductive DecodeError where
  /-- fewer than the two bytes an instruction takes (R90) -/
  | truncated
  /-- the word matches no row of the opcode map (R96) -/
  | unsupportedOpcode (w : Word)
  deriving DecidableEq, Repr

/-- Decode the instruction at the head of any bytes: it and the bytes after it, or a rejection by name.
Every instruction takes two bytes (R90). -/
def decode : List Byte → Except DecodeError (Instr × List Byte)
  | hi :: lo :: rest =>
    match decodeWord (wordOfBytes hi lo) with
    | some i => .ok (i, rest)
    | none => .error (.unsupportedOpcode (wordOfBytes hi lo))
  | _ => .error .truncated

/-- The instruction the decoder reads from a word of the opcode table: the word is laid out big-endian
and its bytes go to the decoder. Every row of the table is the whole 16-bit instruction, so `nbits` adds
nothing. -/
def decodeTableWord (_nbits w : Nat) : Option Instr :=
  match decode (bytesOfWord (BitVec.ofNat 16 w)) with
  | .ok (i, _) => some i
  | .error _ => none

/-! ## The encoder, written from R91 and R92 -/

/-- Format NNN (R91). -/
def encodeNnn (op : Nat) (nnn : BitVec 12) : Word := BitVec.ofNat 16 (op * 4096 + nnn.toNat)

/-- Format XNN (R91). -/
def encodeXnn (op : Nat) (x : RegIdx) (nn : Byte) : Word :=
  BitVec.ofNat 16 (op * 4096 + x.val * 256 + nn.toNat)

/-- Formats XY and XYN (R91): the low nibble is the selector or the row count. -/
def encodeXyn (op : Nat) (x y : RegIdx) (low : Fin 16) : Word :=
  BitVec.ofNat 16 (op * 4096 + x.val * 256 + y.val * 16 + low.val)

/-- The word of an instruction (R91, R92). -/
def encode : Instr → Word
  | .cls => 0x00E0
  | .ret => 0x00EE
  | .jp nnn => encodeNnn 0x1 nnn
  | .call nnn => encodeNnn 0x2 nnn
  | .seImm x nn => encodeXnn 0x3 x nn
  | .sneImm x nn => encodeXnn 0x4 x nn
  | .seReg x y => encodeXyn 0x5 x y 0x0
  | .ldImm x nn => encodeXnn 0x6 x nn
  | .addImm x nn => encodeXnn 0x7 x nn
  | .ldReg x y => encodeXyn 0x8 x y 0x0
  | .orReg x y => encodeXyn 0x8 x y 0x1
  | .andReg x y => encodeXyn 0x8 x y 0x2
  | .xorReg x y => encodeXyn 0x8 x y 0x3
  | .addReg x y => encodeXyn 0x8 x y 0x4
  | .sub x y => encodeXyn 0x8 x y 0x5
  | .shr x y => encodeXyn 0x8 x y 0x6
  | .subn x y => encodeXyn 0x8 x y 0x7
  | .shl x y => encodeXyn 0x8 x y 0xE
  | .sneReg x y => encodeXyn 0x9 x y 0x0
  | .ldI nnn => encodeNnn 0xA nnn
  | .jpV0 nnn => encodeNnn 0xB nnn
  | .rnd x nn => encodeXnn 0xC x nn
  | .drw x y n => encodeXyn 0xD x y n
  | .skp x => encodeXnn 0xE x 0x9E
  | .sknp x => encodeXnn 0xE x 0xA1
  | .ldVxDt x => encodeXnn 0xF x 0x07
  | .ldVxK x => encodeXnn 0xF x 0x0A
  | .ldDtVx x => encodeXnn 0xF x 0x15
  | .ldStVx x => encodeXnn 0xF x 0x18
  | .addI x => encodeXnn 0xF x 0x1E
  | .ldF x => encodeXnn 0xF x 0x29
  | .ldB x => encodeXnn 0xF x 0x33
  | .ldMemVx x => encodeXnn 0xF x 0x55
  | .ldVxMem x => encodeXnn 0xF x 0x65

end Sys2Proof
end

