-- ==== Sys2Proof/Machine/State.lean ====
section
/-! DEFINITION. The state of the block (R20), plain data, and the state after creation (R302). Behind the
spec's thirteen elements stand the model's own fields: what the host and the audio collaborator are about
to do, what the last transaction returned, and the counters of the free values. -/

namespace Sys2Proof.Machine

/-- Memory as the list of its cells that differ from what an unlisted address reads as, addresses rising.
`Memory.wf` in Machine/Ops.lean is that form. -/
abbrev Memory := List Host.Cell

/-- `STATE`, the input state machine's two states (R40). -/
inductive RunState where
  /-- Step runs instructions -/
  | running
  /-- FX0A waits for a KeyDown; Step is a usage error (R112) -/
  | waitingForKey
  deriving DecidableEq, Repr

/-- The typed errors a transaction returns to its caller, with their payloads (R12, R270). -/
inductive CoreError where
  /-- the fetched word matches no row (R117) -/
  | unsupportedOpcode (w : Word)
  /-- Step while waiting for a key (R112) -/
  | invalidState
  /-- 2NNN with sixteen entries in use (R132) -/
  | stackOverflow (w : Word)
  /-- 00EE with no entry in use (R130) -/
  | stackUnderflow (w : Word)
  /-- an access that reaches an address of 4096 or more; the payload is its base address (R64) -/
  | addressOutOfRange (base : Word)
  /-- Load of a program that does not fit (R300) -/
  | programTooLarge
  deriving DecidableEq, Repr

/-- What a transaction returned to its caller: an output, not architectural state (R49, R110, R215, R245). -/
inductive Reply where
  /-- no error -/
  | ok
  /-- a typed error (R270) -/
  | error (e : CoreError)
  /-- the counter that ReadST returned (R245) -/
  | soundTimer (value : Byte)
  /-- the grid that the framebuffer export showed (R215) -/
  | frame (grid : FrameBuffer)
  deriving DecidableEq, Repr

/-- The transactions of the host and of the audio collaborator (R5, R70, R245). -/
inductive HostCall where
  /-- `Load(bytes, now)` (R300) -/
  | load (bytes : List Byte) (now : Nat)
  /-- `Step(now, ticks_per_60hz)` (R110) -/
  | step (now ticksPer60hz : Nat)
  /-- `KeyDown(k)` (R250) -/
  | keyDown (k : Nat)
  /-- `KeyUp(k)` (R251) -/
  | keyUp (k : Nat)
  /-- the read-only framebuffer export (R215) -/
  | exportFrame
  /-- `ReadST()` of the audio collaborator (R245) -/
  | readSt
  /-- `DecST()` of the audio collaborator (R245) -/
  | decSt
  deriving DecidableEq, Repr

/-- Why a run stops with a fault. The spec's own errors are none of these: they are next states whose
`reply` holds the error (R116, R118). -/
inductive Fault where
  /-- Raised by 2NNN and 00EE when SP is 17 or more, a value R46 calls illegal and never reached. Safe:
  the machine stops where the spec gives no meaning; no state that meets the invariant comes here. -/
  | stackPointerOutOfRange (sp : Nat)
  /-- Raised by fetch, FX33, FX55, FX65 and DXYN if a byte at 4096 or above were reached although the
  range was checked (R11, R64). Safe: it is never reached, from any state. -/
  | noSuchAddress (address : Nat)
  /-- Raised by EX9E and EXA1 in the variant `KEY_OOR_POLICY = fault` only (R6, D17), for a key index above
  15. Safe: the machine as R6's defaults fix it never raises it. -/
  | keyIndexOutOfRange (k : Byte)
  deriving DecidableEq, Repr

/-- Why the model refuses to go on. -/
inductive Refusal where
  /-- Raised in exec's arms for an instruction that has no meaning yet; no arm does so. Safe. -/
  | notModelled (mnemonic : String)
  /-- Raised by Step and Load when the host's `now` is below one it passed before or below TICK_REF: the
  behaviour is not defined and a model refuses it (R122, R312 b). Safe. -/
  | hostTimeDecreased (now : Nat)
  /-- Raised by KeyDown and KeyUp for a key above 15: the effect is not defined and a model refuses it
  (R253, R312 c). Safe. -/
  | keyOutOfRange (k : Nat)
  deriving DecidableEq, Repr

/-- The whole state. The first thirteen fields are R20's tuple; the rest are the model's own. -/
structure State where
  /-- `Memory[0..4095]` (R43) -/
  mem : Memory
  /-- `V[0..15]` (R21) -/
  v : RegFile
  /-- `I` (R29) -/
  i : Word
  /-- `PC` (R25) -/
  pc : Word
  /-- `S[0..15]` (R31) -/
  stack : StackFile
  /-- `SP`, how many entries are in use, 0 to 16 (R31, R32) -/
  sp : Nat
  /-- `DT` (R35) -/
  dt : Byte
  /-- `ST` (R36) -/
  st : Byte
  /-- `FB` (R42) -/
  fb : FrameBuffer
  /-- `KEYS` (R39) -/
  keys : Word
  /-- `STATE` (R40) -/
  runState : RunState
  /-- `WAIT_X` (R41) -/
  waitX : RegIdx
  /-- `TICK_REF` (R38) -/
  tickRef : Nat
  /-- the model's own (log 4): the last `now` the host passed to Load or Step (R312 b) -/
  hostNow : Nat
  /-- the model's own (log 2): the transactions waiting to be performed, in their total order (R70) -/
  pending : List HostCall
  /-- the model's own (log 1): what the last transaction returned (R49) -/
  reply : Reply
  /-- the model's own (log 1): every error returned so far, newest first, never cleared (R49, R277) -/
  errors : List CoreError
  /-- the model's own (log 8): how many random bytes have been drawn (R13) -/
  draws : Nat
  /-- the model's own (log 3): how many transactions have been performed -/
  hostCalls : Nat
  deriving DecidableEq, Repr

/-- The machine at creation, which is the state that Load of the empty program leaves (R301, R302): the
font and zeros in Memory, nothing else set, PC at 0x200, running. Host time is counted from here (log 5). -/
def State.reset : State where
  mem := []
  v := Vector.replicate 16 0
  i := 0
  pc := 0x200
  stack := Vector.replicate 16 0
  sp := 0
  dt := 0
  st := 0
  fb := FrameBuffer.empty
  keys := 0
  runState := .running
  waitX := 0
  tickRef := 0
  hostNow := 0
  pending := []
  reply := .ok
  errors := []
  draws := 0
  hostCalls := 0

/-- The outcome of a meaning. -/
abbrev Result := Host.Outcome State Fault Refusal

end Sys2Proof.Machine
end

