-- ==== Sys2Proof/Machine/Ops.lean ====
section
/-! DEFINITION. The named operations over memory, registers, the program counter and the free draws, and
returning a typed error, which is this block's taking of an exception (R275). -/

namespace Sys2Proof.Machine

/-! ## Memory (R11, R43, R60 to R68) -/

/-- What an address that is not listed reads as: the font below 80 and 0 elsewhere, the content creation
leaves (R67, R301, R302). -/
def Memory.unlisted (a : Nat) : Byte := font.getD a 0

/-- The listed byte at an address, if any. -/
def Memory.listed : Memory → Nat → Option Byte
  | [], _ => none
  | (k, b) :: rest, a => if k = a then some b else Memory.listed rest a

/-- `Memory[a]`. -/
def Memory.byteAt (m : Memory) (a : Nat) : Byte := (m.listed a).getD (Memory.unlisted a)

/-- List the byte `b` at `a`, keeping addresses rising. -/
def Memory.put : Memory → Nat → Byte → Memory
  | [], a, b => [(a, b)]
  | (k, v) :: rest, a, b =>
    if a < k then (a, b) :: (k, v) :: rest
    else if a = k then (a, b) :: rest
    else (k, v) :: Memory.put rest a b

/-- `Memory[a] <- b`, in canonical form: a byte equal to what the unlisted address reads as is not
listed. -/
def Memory.setByte (m : Memory) (a : Nat) (b : Byte) : Memory :=
  if b = Memory.unlisted a then m.filter (fun c => c.1 != a) else m.put a b

/-- Write bytes at rising addresses from `a` on (R62). -/
def Memory.setBytes : Memory → Nat → List Byte → Memory
  | m, _, [] => m
  | m, a, b :: bs => Memory.setBytes (m.setByte a b) (a + 1) bs

/-- The canonical form: addresses below 4096, strictly rising, no entry that could be left out. -/
def Memory.wf : Memory → Bool
  | [] => true
  | (a, b) :: rest =>
    decide (a < Config.memSize) && b != Memory.unlisted a && rest.all (fun c => decide (a < c.1)) &&
      Memory.wf rest

/-- Where an access to address `a` goes: to `a` itself, or modulo 4096 in the variant `wrap4096` (R6,
R64). -/
def effectiveAddress (p : Config.OorPolicy) (a : Nat) : Nat :=
  match p with
  | .fault => a
  | .wrap4096 => a % Config.memSize

/-- `CheckRange(a, n)` holds: the `n` bytes from `a` on exist (R11, R64). An empty range checks nothing
(R64, R209). -/
def rangeOk (p : Config.OorPolicy) (a n : Nat) : Bool :=
  match p with
  | .fault => n == 0 || decide (a + n ≤ Config.memSize)
  | .wrap4096 => true

/-- `MemRead(a, 1)`; none where no byte exists (R11, R64). -/
def memRead (p : Config.OorPolicy) (m : Memory) (a : Nat) : Option Byte :=
  if effectiveAddress p a < Config.memSize then some (m.byteAt (effectiveAddress p a)) else none

/-- `MemWrite(a, 1, b)`; none where no byte exists (R11, R64). -/
def memWrite (p : Config.OorPolicy) (m : Memory) (a : Nat) (b : Byte) : Option Memory :=
  if effectiveAddress p a < Config.memSize then some (m.setByte (effectiveAddress p a) b) else none

/-- Read `n` bytes at rising addresses from `a` on (R62). -/
def memReadBlock (p : Config.OorPolicy) (m : Memory) (a : Nat) : Nat → Option (List Byte)
  | 0 => some []
  | n + 1 =>
    match memRead p m a with
    | none => none
    | some b => (memReadBlock p m (a + 1) n).map (b :: ·)

/-- Write bytes at rising addresses from `a` on (R62). -/
def memWriteBlock (p : Config.OorPolicy) : Memory → Nat → List Byte → Option Memory
  | m, _, [] => some m
  | m, a, b :: bs =>
    match memWrite p m a b with
    | none => none
    | some m' => memWriteBlock p m' (a + 1) bs

/-! ## Registers and the program counter -/

/-- `V[x]` (R10, R21). -/
def State.reg (s : State) (x : RegIdx) : Byte := s.v[x]

/-- `V[x] <- b` (R10, R21). -/
def State.setReg (s : State) (x : RegIdx) (b : Byte) : State := { s with v := s.v.set x b }

/-- `V[0..x]`, the block that FX55 stores (R94, R184). -/
def State.regsTo (s : State) (x : RegIdx) : List Byte := s.v.toList.take (x.val + 1)

/-- `V[k] <- bytes[k]` for the registers the bytes reach, from V0 on (R185). -/
def State.setRegs (s : State) (bytes : List Byte) : State :=
  { s with v := Vector.ofFn fun k => bytes.getD k.val (s.reg k) }

/-- `PC <- trunc_16(PC + 2)`: the default advance, a skip, and the advance of an injection (R27, R115). -/
def State.advance (s : State) : State := { s with pc := s.pc + 2 }

/-! ## Free draws -/

/-- `draw rand8()`: a fresh free byte (R13, D18; log 8). -/
def State.drawRand8 (s : State) : Byte × State :=
  (Config.rand8 s.draws, { s with draws := s.draws + 1 })

/-! ## Errors -/

/-- `raise E(info)` (R12, R275): the transaction ends and the error is returned to the caller. Nothing is
saved, no mode changes and PC goes nowhere; what earlier phases wrote stays (R116). There is no return
from an error (R276). The record of errors is the model's own and is never cleared (R277; log 1). -/
def raise (e : CoreError) (s : State) : Result :=
  .next { s with reply := .error e, errors := e :: s.errors }

/-- The numeric code of a result on a hardware port (R270, D36). The answers that ReadST and the export
carry are successes. -/
def Reply.code : Reply → Nat
  | .ok | .soundTimer _ | .frame _ => 0
  | .error (.unsupportedOpcode _) => 1
  | .error .invalidState => 2
  | .error (.stackOverflow _) => 3
  | .error (.stackUnderflow _) => 4
  | .error (.addressOutOfRange _) => 5
  | .error .programTooLarge => 6

end Sys2Proof.Machine
end

