-- ==== Sys2Proof/Machine/Operands.lean ====
section
/-! DEFINITION. The operand forms: the one data addressing mode `I + k` (R186), the jump targets (R93),
the conditional skip (R15 glossary, R133), and the key index (R233). -/

namespace Sys2Proof.Machine

/-- Read the `n` bytes from `I` on, after `CheckRange(I, n)`, and go on with them; out of range the
instruction returns `AddressOutOfRange(I)` having done nothing (R64, R186). -/
def withBlock (n : Nat) (s : State) (use : List Byte → Result) : Result :=
  if rangeOk params.oorPolicy s.i.toNat n then
    match memReadBlock params.oorPolicy s.mem s.i.toNat n with
    | some bytes => use bytes
    | none => .fault (.noSuchAddress s.i.toNat)
  else raise (.addressOutOfRange s.i) s

/-- Write bytes from `I` on, after `CheckRange(I, n)`; out of range the instruction returns
`AddressOutOfRange(I)` having written nothing (R64, R186). -/
def storeBlock (bytes : List Byte) (s : State) : Result :=
  if rangeOk params.oorPolicy s.i.toNat bytes.length then
    match memWriteBlock params.oorPolicy s.mem s.i.toNat bytes with
    | some m => .next { s with mem := m }
    | none => .fault (.noSuchAddress s.i.toNat)
  else raise (.addressOutOfRange s.i) s

/-- `zext_16(NNN)`, an absolute address (R93). -/
def absoluteAddress (nnn : BitVec 12) : Word := nnn.setWidth 16

/-- `trunc_16(zext_16(NNN) + zext_16(V[0]))` (R93, R137). -/
def computedAddress (nnn : BitVec 12) (v0 : Byte) : Word := nnn.setWidth 16 + v0.setWidth 16

/-- A skip: PC passes over one more word when the condition holds (R25, R138). -/
def State.skipIf (cond : Bool) (s : State) : State := if cond then s.advance else s

/-- Whether the key that `k` names is pressed (R233, R234). Above 15 no key is named: not pressed by
default, none in the variant `fault`, the low nibble's key in the variant `low_nibble` (R6, D17). -/
def keyPressed (p : Config.KeyOorPolicy) (keys : Word) (k : Byte) : Option Bool :=
  if k.toNat ≤ 15 then some (keys.getLsbD k.toNat)
  else match p with
    | .notPressed => some false
    | .fault => none
    | .lowNibble => some (keys.getLsbD (k.toNat % 16))

/-- The decimal digits of a byte, hundreds first (R63, R183). -/
def decimalDigits (b : Byte) : List Byte :=
  [BitVec.ofNat 8 (b.toNat / 100), BitVec.ofNat 8 (b.toNat / 10 % 10), BitVec.ofNat 8 (b.toNat % 10)]

end Sys2Proof.Machine
end

