-- ==== Sys2Proof/Machine/Flags.lean ====
section
/-! DEFINITION. The flag VF: its values (R45) and the order of its write against the result's (R14, R22,
D13). -/

namespace Sys2Proof.Machine

/-- A flag is 1 or 0 (R45). -/
def flagOf (cond : Bool) : Byte := if cond then 1 else 0

/-- The carry of an addition: the exact sum is above 255 (R158). -/
def carryFlag (a b : Byte) : Byte := flagOf (decide (a.toNat + b.toNat > 255))

/-- `a > b`, strictly and unsigned: no borrow and not equal (R151, R159, R161). -/
def greaterFlag (a b : Byte) : Byte := flagOf (decide (a.toNat > b.toNat))

/-- Bit 0, which SHR shifts out (R160). -/
def lowBitFlag (a : Byte) : Byte := flagOf (a.getLsbD 0)

/-- Bit 7, which SHL shifts out (R162). -/
def highBitFlag (a : Byte) : Byte := flagOf (a.getLsbD 7)

/-- The result is written to `V[x]` and then the flag to VF, both computed from the registers as they
stood (8XY4, R158). -/
def resultThenFlag (x : RegIdx) (result flag : Byte) (s : State) : State :=
  (s.setReg x result).setReg regF flag

/-- The flag is written to VF and then the result to `V[x]`, the result computed from the registers as the
flag's write left them (8XY5, 8XY6, 8XY7, 8XYE; R14, D13). In the variant `snapshot` both are computed
from the registers as they stood and VF is written last (R6). -/
def flagThenResult (order : Config.FlagOrder) (x : RegIdx) (flag result : State → Byte) (s : State) :
    State :=
  match order with
  | .sequential => (s.setReg regF (flag s)).setReg x (result (s.setReg regF (flag s)))
  | .snapshot => resultThenFlag x (result s) (flag s) s

end Sys2Proof.Machine
end

