-- ==== Sys2Proof/Machine/Alu.lean ====
section
/-! DEFINITION. Register arithmetic and logic (spec/42_alu.md, R150 to R163): unsigned, modulo 256. -/

namespace Sys2Proof.Machine

/-- 6XNN LD Vx, nn (R152). -/
def execLdImm (x : RegIdx) (nn : Byte) (s : State) : Result := .next (s.setReg x nn)

/-- 7XNN ADD Vx, nn; no flag (R153). -/
def execAddImm (x : RegIdx) (nn : Byte) (s : State) : Result := .next (s.setReg x (s.reg x + nn))

/-- 8XY0 LD Vx, Vy (R154). -/
def execLdReg (x y : RegIdx) (s : State) : Result := .next (s.setReg x (s.reg y))

/-- 8XY1 OR Vx, Vy; no flag (R155). -/
def execOrReg (x y : RegIdx) (s : State) : Result := .next (s.setReg x (s.reg x ||| s.reg y))

/-- 8XY2 AND Vx, Vy; no flag (R156). -/
def execAndReg (x y : RegIdx) (s : State) : Result := .next (s.setReg x (s.reg x &&& s.reg y))

/-- 8XY3 XOR Vx, Vy; no flag (R157). -/
def execXorReg (x y : RegIdx) (s : State) : Result := .next (s.setReg x (s.reg x ^^^ s.reg y))

/-- 8XY4 ADD Vx, Vy: the sum, then the carry into VF (R158). -/
def execAddReg (x y : RegIdx) (s : State) : Result :=
  .next (resultThenFlag x (s.reg x + s.reg y) (carryFlag (s.reg x) (s.reg y)) s)

/-- 8XY5 SUB Vx, Vy: `V[X] > V[Y]` into VF, then the difference (R159). -/
def execSub (x y : RegIdx) (s : State) : Result :=
  .next (flagThenResult params.flagOrder x (fun r => greaterFlag (r.reg x) (r.reg y))
    (fun r => r.reg x - r.reg y) s)

/-- 8XY6 SHR Vx: bit 0 into VF, then the shift; V[Y] is not read (R160). -/
def execShr (x _y : RegIdx) (s : State) : Result :=
  .next (flagThenResult params.flagOrder x (fun r => lowBitFlag (r.reg x)) (fun r => r.reg x >>> 1) s)

/-- 8XY7 SUBN Vx, Vy: `V[Y] > V[X]` into VF, then the difference (R161). -/
def execSubn (x y : RegIdx) (s : State) : Result :=
  .next (flagThenResult params.flagOrder x (fun r => greaterFlag (r.reg y) (r.reg x))
    (fun r => r.reg y - r.reg x) s)

/-- 8XYE SHL Vx: bit 7 into VF, then the shift; V[Y] is not read (R162). -/
def execShl (x _y : RegIdx) (s : State) : Result :=
  .next (flagThenResult params.flagOrder x (fun r => highBitFlag (r.reg x)) (fun r => r.reg x <<< 1) s)

/-- CXNN RND Vx, nn: a free byte masked by nn (R163). -/
def execRnd (x : RegIdx) (nn : Byte) (s : State) : Result :=
  .next (s.drawRand8.2.setReg x (s.drawRand8.1 &&& nn))

end Sys2Proof.Machine
end

