-- ==== Sys2Proof/Machine/Control.lean ====
section
/-! DEFINITION. Control transfer (spec/41_control_flow.md, R130 to R139). Every meaning starts with PC
already advanced (R25, R115). -/

namespace Sys2Proof.Machine

/-- 00EE RET: pop the return address into PC (R130). -/
def execRet (s : State) : Result :=
  if s.sp = 0 then raise (.stackUnderflow (encode .ret)) s
  else if h : s.sp ≤ 16 ∧ 0 < s.sp then
    .next { s with sp := s.sp - 1, pc := s.stack[s.sp - 1]'(by omega) }
  else .fault (.stackPointerOutOfRange s.sp)

/-- 1NNN JP nnn (R131). -/
def execJp (nnn : BitVec 12) (s : State) : Result := .next { s with pc := absoluteAddress nnn }

/-- 2NNN CALL nnn: push the advanced PC and jump (R132). -/
def execCall (nnn : BitVec 12) (s : State) : Result :=
  if s.sp = Config.stackDepth then raise (.stackOverflow (encode (.call nnn))) s
  else if h : s.sp < 16 then
    .next { s with stack := s.stack.set s.sp s.pc h, sp := s.sp + 1, pc := absoluteAddress nnn }
  else .fault (.stackPointerOutOfRange s.sp)

/-- 3XNN SE Vx, nn (R133). -/
def execSeImm (x : RegIdx) (nn : Byte) (s : State) : Result := .next (s.skipIf (s.reg x == nn))

/-- 4XNN SNE Vx, nn (R134). -/
def execSneImm (x : RegIdx) (nn : Byte) (s : State) : Result := .next (s.skipIf (s.reg x != nn))

/-- 5XY0 SE Vx, Vy (R135). -/
def execSeReg (x y : RegIdx) (s : State) : Result := .next (s.skipIf (s.reg x == s.reg y))

/-- 9XY0 SNE Vx, Vy (R136). -/
def execSneReg (x y : RegIdx) (s : State) : Result := .next (s.skipIf (s.reg x != s.reg y))

/-- BNNN JP V0, nnn (R137). -/
def execJpV0 (nnn : BitVec 12) (s : State) : Result :=
  .next { s with pc := computedAddress nnn (s.reg 0) }

end Sys2Proof.Machine
end

