-- ==== Sys2Proof/Machine/Display.lean ====
section
/-! DEFINITION. The display (spec/44_display.md, R200 to R215): the sprite compositor as a pure function,
clear and draw. -/

namespace Sys2Proof

/-- `FB[c, r]` for a column and a row of the screen; no cell elsewhere is set (R42). -/
def FrameBuffer.cell (fb : FrameBuffer) (c r : Nat) : Bool :=
  if h : c < 64 ∧ r < 32 then (fb[r]'h.2)[c]'h.1 else false

/-- `FB[c, r] <- not FB[c, r]`, on the screen (R206). -/
def FrameBuffer.flip (fb : FrameBuffer) (c r : Nat) : FrameBuffer :=
  if h : c < 64 ∧ r < 32 then fb.set r ((fb[r]'h.2).set c (!(fb[r]'h.2)[c]'h.1) h.1) h.2 else fb

end Sys2Proof

namespace Sys2Proof.Machine

/-- One 1-bit of a sprite at column `c` of a row on the screen: past the right edge it is skipped, else
the cell is flipped and a set cell is a collision (R205, R206). -/
def plot (c r : Nat) (acc : FrameBuffer × Bool) : FrameBuffer × Bool :=
  if c ≥ 64 then acc else (FrameBuffer.flip acc.1 c r, acc.2 || FrameBuffer.cell acc.1 c r)

/-- Bit `b` of a sprite byte, most significant first (R203). -/
def spriteBit (byte : Byte) (b : Nat) : Bool := byte.getLsbD (7 - b)

/-- One sprite row at row `r` of the screen, its left end at column `x`; a row below the bottom edge is
skipped (R204, R207). -/
def drawRow (x r : Nat) (byte : Byte) (acc : FrameBuffer × Bool) : FrameBuffer × Bool :=
  if r ≥ 32 then acc
  else (List.range 8).foldl (fun acc b => if spriteBit byte b then plot (x + b) r acc else acc) acc

/-- The sprite's rows from `y` down (R203, R207). -/
def drawRows (x y : Nat) : List Byte → FrameBuffer × Bool → FrameBuffer × Bool
  | [], acc => acc
  | byte :: rest, acc => drawRows x (y + 1) rest (drawRow x y byte acc)

/-- The sprite compositor: the new framebuffer and whether any pixel collided, from the framebuffer, the
sprite's bytes and the origin (R200, R207). It writes no state. -/
def compose (fb : FrameBuffer) (sprite : List Byte) (x y : Nat) : FrameBuffer × Bool :=
  drawRows x y sprite (fb, false)

/-- 00E0 CLS (R201). -/
def execCls (s : State) : Result := .next { s with fb := FrameBuffer.empty }

/-- DXYN DRW Vx, Vy, n: the coordinates are read first, VF is written last (R202). -/
def execDrw (x y : RegIdx) (n : Fin 16) (s : State) : Result :=
  withBlock n.val s fun sprite =>
    .next (State.setReg { s with fb := (compose s.fb sprite (s.reg x).toNat (s.reg y).toNat).1 } regF
      (flagOf (compose s.fb sprite (s.reg x).toNat (s.reg y).toNat).2))

end Sys2Proof.Machine
end

