-- ==== Sys2Proof/Machine/Index.lean ====
section
/-! DEFINITION. The index register and memory transfers (spec/43_index_memory.md, R180 to R186). -/

namespace Sys2Proof.Machine

/-- ANNN LD I, nnn (R180). -/
def execLdI (nnn : BitVec 12) (s : State) : Result := .next { s with i := absoluteAddress nnn }

/-- FX1E ADD I, Vx: modulo 65536, VF not written (R181). -/
def execAddI (x : RegIdx) (s : State) : Result := .next { s with i := s.i + (s.reg x).setWidth 16 }

/-- FX29 LD F, Vx: the glyph's address, for every value of V[X] (R182). -/
def execLdF (x : RegIdx) (s : State) : Result :=
  .next { s with i := BitVec.ofNat 16 ((s.reg x).toNat * Config.glyphBytes) }

/-- FX33 LD B, Vx: the three decimal digits at I, I+1, I+2 (R183). -/
def execLdB (x : RegIdx) (s : State) : Result := storeBlock (decimalDigits (s.reg x)) s

/-- FX55 LD [I], Vx: store V[0..X]; I stays (R184). -/
def execLdMemVx (x : RegIdx) (s : State) : Result := storeBlock (s.regsTo x) s

/-- FX65 LD Vx, [I]: load V[0..X]; I stays (R185). -/
def execLdVxMem (x : RegIdx) (s : State) : Result :=
  withBlock (x.val + 1) s fun bytes => .next (s.setRegs bytes)

end Sys2Proof.Machine
end

