-- ==== Sys2Proof/Machine/TimerInput.lean ====
section
/-! DEFINITION. The timer and key instructions (spec/45_timer_input.md, R230 to R235). -/

namespace Sys2Proof.Machine

/-- FX07 LD Vx, DT (R230). -/
def execLdVxDt (x : RegIdx) (s : State) : Result := .next (s.setReg x s.dt)

/-- FX0A LD Vx, K: record X, wait, and rewind PC to this instruction (R235). -/
def execLdVxK (x : RegIdx) (s : State) : Result :=
  .next { s with waitX := x, runState := .waitingForKey, pc := s.pc - 2 }

/-- FX15 LD DT, Vx; TICK_REF stays, but in the variant `TICK_RESET_ON_FX15` it takes this Step's `now`
(R231, R6, D3). -/
def execLdDtVx (x : RegIdx) (s : State) : Result :=
  .next { s with dt := s.reg x, tickRef := if params.tickResetOnFx15 then s.hostNow else s.tickRef }

/-- FX18 LD ST, Vx: one indivisible write (R232, R246). -/
def execLdStVx (x : RegIdx) (s : State) : Result := .next { s with st := s.reg x }

/-- EX9E SKP Vx (R233). -/
def execSkp (x : RegIdx) (s : State) : Result :=
  match keyPressed params.keyOorPolicy s.keys (s.reg x) with
  | some pressed => .next (s.skipIf pressed)
  | none => .fault (.keyIndexOutOfRange (s.reg x))

/-- EXA1 SKNP Vx (R234). -/
def execSknp (x : RegIdx) (s : State) : Result :=
  match keyPressed params.keyOorPolicy s.keys (s.reg x) with
  | some pressed => .next (s.skipIf (!pressed))
  | none => .fault (.keyIndexOutOfRange (s.reg x))

end Sys2Proof.Machine
end

