-- ==== Sys2Proof/Machine/HostPort.lean ====
section
/-! DEFINITION. The entry points besides Step: Load and the reset it makes (R300, R301), the key events
and the injection (R250 to R253), the framebuffer export (R215) and the sound-timer port (R245). -/

namespace Sys2Proof.Machine

/-- The decided reset values (R301, D20). -/
def decidedReset : Config.ResetValues where
  v := Vector.replicate 16 0
  i := 0
  dt := 0
  st := 0
  fb := FrameBuffer.empty

/-- The values a reset made as transaction `n` gives V, I, DT, ST and FB: the decided ones, or free ones
in the variant `RESET_ARBITRARY` (R48, R6). -/
def resetValues (p : Config.Params) (n : Nat) : Config.ResetValues :=
  if p.resetArbitrary then Config.arbitraryReset n else decidedReset

/-- `reset(bytes, now)`: every element of the block's state (R301). The model's own fields stay. -/
def State.resetTo (s : State) (r : Config.ResetValues) (bytes : List Byte) (now : Nat) : State :=
  { s with
    mem := Memory.setBytes [] Config.programBase bytes
    v := r.v
    i := r.i
    pc := BitVec.ofNat 16 Config.programBase
    stack := Vector.replicate 16 0
    sp := 0
    dt := r.dt
    st := r.st
    fb := r.fb
    keys := 0
    runState := .running
    waitX := 0
    tickRef := now }

/-- The size check of Load, which counts the font twice over the load offset (R300, C5). -/
def programFits (bytes : List Byte) : Bool :=
  decide (Config.fontSize + Config.programBase + bytes.length ≤ Config.memSize)

/-- `Load(bytes, now)`: a full reset in any state, or `ProgramTooLarge` and no change (R300, R303, D34). A
`now` below an earlier one is refused (R312 b). -/
def load (bytes : List Byte) (now : Nat) (s : State) : Result :=
  if now < s.hostNow then .refused (.hostTimeDecreased now)
  else if programFits bytes then
    .next (State.resetTo { s with hostNow := now } (resetValues params s.hostCalls) bytes now)
  else raise .programTooLarge { s with hostNow := now }

/-- `inject(k)`: complete the waiting FX0A (R252). -/
def State.inject (s : State) (k : Nat) : State :=
  { (s.setReg s.waitX (BitVec.ofNat 8 k)).advance with runState := .running }

/-- `KeyDown(k)`: set the key's bit and, while waiting, inject the key (R250). A key above 15 is refused
(R253). -/
def keyDown (k : Nat) (s : State) : Result :=
  if k > 15 then .refused (.keyOutOfRange k)
  else match s.runState with
    | .running => .next { s with keys := s.keys ||| BitVec.twoPow 16 k }
    | .waitingForKey => .next (State.inject { s with keys := s.keys ||| BitVec.twoPow 16 k } k)

/-- `KeyUp(k)`: clear the key's bit (R251). A key above 15 is refused (R253). -/
def keyUp (k : Nat) (s : State) : Result :=
  if k > 15 then .refused (.keyOutOfRange k)
  else .next { s with keys := s.keys &&& ~~~ BitVec.twoPow 16 k }

/-- The framebuffer export: the host sees the grid and nothing changes (R215). -/
def exportFrame (s : State) : Result := .next { s with reply := .frame s.fb }

/-- The linear index of a cell for a presentation that needs one (R215, D25). -/
def linearIndex (c r : Nat) : Nat := r * 64 + c

/-- `ReadST()`: the audio collaborator sees the counter and nothing changes (R245). -/
def readSt (s : State) : Result := .next { s with reply := .soundTimer s.st }

/-- `DecST()`: one less, stopping at 0 (R245). -/
def decSt (s : State) : Result := .next (if s.st = 0 then s else { s with st := s.st - 1 })

end Sys2Proof.Machine
end

