-- ==== Sys2Proof/Machine/Transactions.lean ====
section
/-! DEFINITION. The step contract (spec/40_step.md, R110 to R122) and the choice of the next transaction
(R70). -/

namespace Sys2Proof.Machine

/-- Phase 1: the delay timer ticks by one at most, when the interval exceeds the threshold strictly (R113,
R240). -/
def timerPhase (now ticksPer60hz : Nat) (s : State) : State :=
  if s.dt ≠ 0 ∧ now - s.tickRef > ticksPer60hz then { s with dt := s.dt - 1, tickRef := now } else s

/-- Phases 4 and 5 on the fetched word, PC already advanced: no row is `UnsupportedOpcode(w)` (R111,
R117). -/
def decodeAndExecute (w : Word) (s : State) : Result :=
  match decodeWord w with
  | some i => exec i s
  | none => raise (.unsupportedOpcode w) s

/-- The word at PC, big-endian (R63, R114); none where a byte of it does not exist. -/
def fetchWord (s : State) : Option Word :=
  match memReadBlock params.oorPolicy s.mem s.pc.toNat 2 with
  | some [hi, lo] => some (wordOfBytes hi lo)
  | _ => none

/-- Phases 2 to 5: fetch after `CheckRange(PC, 2)`, the default advance, decode and execute (R111, R114,
R115). -/
def fetchAndExecute (s : State) : Result :=
  if rangeOk params.oorPolicy s.pc.toNat 2 then
    match fetchWord s with
    | some w => decodeAndExecute w s.advance
    | none => .fault (.noSuchAddress s.pc.toNat)
  else raise (.addressOutOfRange s.pc) s

/-- `Step(now, ticks_per_60hz)` (R111), for a `now` that keeps the host's duty. Phase 0: while waiting for
a key it returns `InvalidState` and the block's state does not change (R112, D5). -/
def stepPhases (now ticksPer60hz : Nat) (s : State) : Result :=
  match s.runState with
  | .waitingForKey => raise .invalidState { s with hostNow := now }
  | .running => fetchAndExecute (timerPhase now ticksPer60hz { s with hostNow := now })

/-- A Step the host calls: one whose `now` decreases is refused (R122, R312 b). -/
def stepCall (now ticksPer60hz : Nat) (s : State) : Result :=
  if now < s.hostNow ∨ now < s.tickRef then .refused (.hostTimeDecreased now)
  else stepPhases now ticksPer60hz s

/-- One transaction (R5, R70). -/
def perform (c : HostCall) (s : State) : Result :=
  match c with
  | .load bytes now => load bytes now s
  | .step now ticksPer60hz => stepCall now ticksPer60hz s
  | .keyDown k => keyDown k s
  | .keyUp k => keyUp k s
  | .exportFrame => exportFrame s
  | .readSt => readSt s
  | .decSt => decSt s

/-- A transaction begins: it is counted, and returns `Ok` unless it says otherwise (log 1, log 3). -/
def State.begin (s : State) : State := { s with reply := .ok, hostCalls := s.hostCalls + 1 }

/-- The host's `now` in a Step the pending list does not give: some time at or after the last, so that the
duty of R312 b is kept (log 3). -/
def freeNow (s : State) : Nat := max s.hostNow s.tickRef + Config.elapsed s.hostCalls

/-- The next transaction: the oldest pending one, or, with none pending, a Step at a free time (log 2,
log 3). -/
def nextTransaction (s : State) : Result :=
  match s.pending with
  | c :: rest => perform c (State.begin { s with pending := rest })
  | [] => stepPhases (freeNow s) (Config.ticks s.hostCalls) s.begin

/-- The state with a word placed where the next step fetches: its two bytes at PC, big-endian, nothing
pending, running; a PC with no two bytes left moves to the program base. -/
def placeWord (s : State) (w : Word) : State :=
  let pc : Word := if s.pc.toNat + 2 ≤ Config.memSize then s.pc else BitVec.ofNat 16 Config.programBase
  { s with pc := pc, mem := s.mem.setBytes pc.toNat (bytesOfWord w), pending := [], runState := .running }

end Sys2Proof.Machine
end

