-- ==== Sys2Proof/Machine/Step.lean ====
section
/-! DEFINITION. One step of the machine is one transaction. -/

namespace Sys2Proof.Machine

/-- The machine's step: the next transaction (R70). -/
def step (s : State) : Host.Outcome State Fault Refusal := nextTransaction s

/-- `s` with an opcode-table word stored where `step` fetches its next instruction. Every instruction is
16 bits, so `nbits` adds nothing. -/
def State.withFetchWord (s : State) (_nbits w : Nat) : State := placeWord s (BitVec.ofNat 16 w)

end Sys2Proof.Machine
end

