-- ==== Sys2Proof/Assembly.lean ====
section
/-! DEFINITION. The notation of R98 and R99: how an instruction is written as a line of assembly, and the
bytes that a list of instructions and data bytes stands for. Notation only: no meaning reads it. -/

namespace Sys2Proof

/-- One hexadecimal digit. -/
def hexDigit (d : Nat) : String := String.singleton ("0123456789ABCDEF".toList.getD d '0')

/-- A register, `V0` to `VF` (R98). -/
def regText (x : RegIdx) : String := "V" ++ hexDigit x.val

/-- A number in hexadecimal, as many digits as its field has (R98). -/
def numText (digits value : Nat) : String :=
  (List.range digits).reverse.foldl (fun acc k => acc ++ hexDigit (value / 16 ^ k % 16)) "0x"

/-- The mnemonic and the operands of an instruction, in the order of R92's mnemonic column. `SHR` and
`SHL` leave `Vy` out when Y is 0 (R99). -/
def Instr.assembly : Instr → String × List String
  | .cls => ("CLS", [])
  | .ret => ("RET", [])
  | .jp nnn => ("JP", [numText 3 nnn.toNat])
  | .call nnn => ("CALL", [numText 3 nnn.toNat])
  | .seImm x nn => ("SE", [regText x, numText 2 nn.toNat])
  | .sneImm x nn => ("SNE", [regText x, numText 2 nn.toNat])
  | .seReg x y => ("SE", [regText x, regText y])
  | .ldImm x nn => ("LD", [regText x, numText 2 nn.toNat])
  | .addImm x nn => ("ADD", [regText x, numText 2 nn.toNat])
  | .ldReg x y => ("LD", [regText x, regText y])
  | .orReg x y => ("OR", [regText x, regText y])
  | .andReg x y => ("AND", [regText x, regText y])
  | .xorReg x y => ("XOR", [regText x, regText y])
  | .addReg x y => ("ADD", [regText x, regText y])
  | .sub x y => ("SUB", [regText x, regText y])
  | .shr x y => ("SHR", if y = 0 then [regText x] else [regText x, regText y])
  | .subn x y => ("SUBN", [regText x, regText y])
  | .shl x y => ("SHL", if y = 0 then [regText x] else [regText x, regText y])
  | .sneReg x y => ("SNE", [regText x, regText y])
  | .ldI nnn => ("LD", ["I", numText 3 nnn.toNat])
  | .jpV0 nnn => ("JP", ["V0", numText 3 nnn.toNat])
  | .rnd x nn => ("RND", [regText x, numText 2 nn.toNat])
  | .drw x y n => ("DRW", [regText x, regText y, numText 1 n.val])
  | .skp x => ("SKP", [regText x])
  | .sknp x => ("SKNP", [regText x])
  | .ldVxDt x => ("LD", [regText x, "DT"])
  | .ldVxK x => ("LD", [regText x, "K"])
  | .ldDtVx x => ("LD", ["DT", regText x])
  | .ldStVx x => ("LD", ["ST", regText x])
  | .addI x => ("ADD", ["I", regText x])
  | .ldF x => ("LD", ["F", regText x])
  | .ldB x => ("LD", ["B", regText x])
  | .ldMemVx x => ("LD", ["[I]", regText x])
  | .ldVxMem x => ("LD", [regText x, "[I]"])

/-- The line of an instruction (R98). -/
def Instr.line (i : Instr) : String :=
  match i.assembly with
  | (m, []) => m
  | (m, ops) => m ++ " " ++ String.intercalate ", " ops

/-- One item of a program's text: an instruction, or the directive `DB`, which emits one byte (R99). -/
inductive AsmItem where
  | instr (i : Instr)
  | db (b : Byte)
  deriving DecidableEq, Repr

/-- The bytes of one item, an instruction's high byte first (R63). -/
def AsmItem.bytes : AsmItem → List Byte
  | .instr i => bytesOfWord (encode i)
  | .db b => [b]

/-- The bytes of a program, as Load takes them (R99, R300). -/
def assemble (items : List AsmItem) : List Byte := items.flatMap AsmItem.bytes

end Sys2Proof
end

