-- ==== Sys2Proof/Safety.lean ====
section
/-! DEFINITION. What claims speak of: the invariant, a run without errors, the end of a run (R316), and
which parts of the state a transaction may change. -/

namespace Sys2Proof.Machine

/-- The invariant: Memory is in canonical form, SP is at most 16 (R32, R46), and TICK_REF is no later than
the host's current time (R46). -/
abbrev State.Inv (s : State) : Prop := s.mem.wf = true ∧ s.sp ≤ 16 ∧ s.tickRef ≤ s.hostNow

/-- While the block waits, the word at PC is the FX0A that entered the wait, and WAIT_X is its X field
(R41, R235, C1). -/
abbrev State.WaitInv (s : State) : Prop :=
  s.runState = .waitingForKey → (fetchWord s).bind decodeWord = some (.ldVxK s.waitX)

/-- No error has been recorded: the premise R277 asks of a claim about a run. -/
abbrev State.Clean (s : State) : Prop := s.errors = []

/-- The word at PC is `1NNN` with `NNN = PC`, and the block is running: the end of a run (R316). -/
def State.atIdleLoop (s : State) : Bool :=
  match s.runState, (fetchWord s).bind decodeWord with
  | .running, some (.jp nnn) => absoluteAddress nnn == s.pc
  | _, _ => false

/-- A final state of a run: at an idle loop with no error recorded (R277, R316). -/
def State.final (s : State) : Bool := s.atIdleLoop && s.errors.isEmpty

/-- The thirteen elements of R20's tuple are the same in both states; only the model's own fields may
differ. -/
abbrev State.SameBlock (s t : State) : Prop :=
  t = { s with hostNow := t.hostNow, pending := t.pending, reply := t.reply, errors := t.errors,
               draws := t.draws, hostCalls := t.hostCalls }

/-- Nothing changed but V registers named in the list. -/
abbrev State.OnlyRegs (s t : State) (xs : List RegIdx) : Prop :=
  t = { s with v := t.v } ∧ ∀ y, y ∉ xs → t.reg y = s.reg y

/-- Nothing changed but the `n` bytes of Memory from `a` on. -/
abbrev State.OnlyBytes (s t : State) (a n : Nat) : Prop :=
  t = { s with mem := t.mem } ∧ ∀ b, ¬ (a ≤ b ∧ b < a + n) → t.mem.byteAt b = s.mem.byteAt b

/-- The error a transaction returned, and nothing else it did: `t` is `s` with the error in the reply and
in the record. -/
abbrev State.Raised (s t : State) (e : CoreError) : Prop :=
  t = { s with reply := .error e, errors := e :: s.errors }

/-- The step about to be made is the host's call of Step, at a time that keeps its duty (R110, R122). -/
abbrev State.StepDue (s : State) (now ticks : Nat) (rest : List HostCall) : Prop :=
  s.pending = .step now ticks :: rest ∧ s.hostNow ≤ now ∧ s.tickRef ≤ now

/-- The state in which the phases of that Step begin: the call is taken from the pending list, counted, and
its time is noted. The thirteen elements of the block are as they were. -/
abbrev State.stepStart (s : State) (now : Nat) (rest : List HostCall) : State :=
  { s with pending := rest, reply := .ok, hostCalls := s.hostCalls + 1, hostNow := now }

/-- The word at PC, big-endian (R63). -/
abbrev State.wordAtPc (s : State) : Word :=
  wordOfBytes (s.mem.byteAt s.pc.toNat) (s.mem.byteAt (s.pc.toNat + 1))

/-- An instruction stands on the row `pattern` under `mask`: its word matches, and the word decodes to it
(R92). -/
abbrev OnRow (i : Instr) (pattern mask : Word) : Prop :=
  encode i &&& mask = pattern ∧ decodeWord (encode i) = some i

/-- Whether a sprite of `n` rows read from `a` on, drawn at `(x, y)`, has a visible 1-bit at column `c` and
row `r`: row `r - y` of the sprite is the byte at `a + (r - y)`, bit 7 is its left pixel, and what lies
past the screen's edges is not visible (R203 to R205). -/
def spritePixel (m : Memory) (a n x y c r : Nat) : Bool :=
  decide (x ≤ c ∧ c < x + 8 ∧ c < 64 ∧ y ≤ r ∧ r < y + n ∧ r < 32) &&
    (m.byteAt (a + (r - y))).getLsbD (7 - (c - x))

end Sys2Proof.Machine
end

