-- ==== Sys2Proof/Certificates/Slice0/Obligations.lean ====
section
/-! DEFINITION. The statements for the provers. Every result statement has the completion of its
instruction as its conclusion and says what the instruction leaves unchanged; `exec` runs with PC already
advanced (R115). -/

open Sys2Proof Sys2Proof.Machine

/-! ## Encoding -/

/-- A few words written out from the spec's own examples decode to what they stand for (R92; the words of
95_test_vectors.md). -/
def Obligations.SampleWordsDecode : Prop :=
  decodeWord 0x00E0 = some .cls ∧ decodeWord 0x2210 = some (.call 0x210) ∧
  decodeWord 0x6A3C = some (.ldImm 0xA 0x3C) ∧ decodeWord 0x82F6 = some (.shr 2 0xF) ∧
  decodeWord 0xD015 = some (.drw 0 1 5) ∧ decodeWord 0xE19E = some (.skp 1) ∧
  decodeWord 0xF265 = some (.ldVxMem 2) ∧ decodeWord 0x5011 = none ∧ decodeWord 0x800F = none

/-- Decoding the encoded instruction gives it back, for every instruction and operand and whatever bytes
follow; its row of the opcode map is the one R92 gives it. -/
def Obligations.DecodeOfEncode : Prop :=
  ∀ (i : Instr) (rest : List Byte), i.wellFormed = true →
    decode (bytesOfWord (encode i) ++ rest) = .ok (i, rest) ∧ decodeWord (encode i) = some i

/-- No bit of a legal word is dropped: the instruction a word decodes to encodes to that word. -/
def Obligations.EncodeOfDecode : Prop :=
  ∀ (w : Word) (i : Instr), decodeWord w = some i → encode i = w

/-- R92: a word is an instruction when it matches that instruction's row, the rows are the 34 of the map,
no two rows match the same word, and a word that matches none is no instruction. -/
def Obligations.OpcodeMapDecides : Prop :=
  opcodeMap.length = 34 ∧
  (∀ (w : Word) (i : Instr), decodeWord w = some i → i.row ∈ opcodeMap ∧ i.row.covers w = true) ∧
  (∀ (w : Word) (r : Row), r ∈ opcodeMap → r.covers w = true →
    ∃ i, decodeWord w = some i ∧ i.row = r) ∧
  (∀ (w : Word) (r q : Row), r ∈ opcodeMap → q ∈ opcodeMap → r.covers w = true → q.covers w = true →
    r = q) ∧
  (∀ w : Word, legalWord w = false ↔ decodeWord w = none)

/-! ## The step contract -/

/-- R111: the phases of Step in their order, each error ending it. -/
def Obligations.StepContract : Prop :=
  ∀ (s : State) (now ticks : Nat) (rest : List HostCall), s.StepDue now ticks rest →
    step s =
      if s.runState = .waitingForKey then raise .invalidState (s.stepStart now rest)
      else
        let s1 : State :=
          if s.dt ≠ 0 ∧ now - s.tickRef > ticks then
            { s.stepStart now rest with dt := s.dt - 1, tickRef := now }
          else s.stepStart now rest
        if s.pc.toNat + 2 > 4096 then raise (.addressOutOfRange s.pc) s1
        else
          match decodeWord s.wordAtPc with
          | some i => exec i { s1 with pc := s.pc + 2 }
          | none => raise (.unsupportedOpcode s.wordAtPc) { s1 with pc := s.pc + 2 }

/-- When the bytes at PC decode to an instruction, a step is exec of it on the state whose timer phase and
default advance are done: for a Step the host calls and for the Step at a free time that is made when
nothing is pending (that choice is the model's own: logs 2 and 3). -/
def Obligations.StepRunsDecodedInstruction : Prop :=
  ∀ (s : State) (i : Instr), s.runState = .running → s.pc.toNat + 2 ≤ 4096 →
    decodeWord s.wordAtPc = some i → i.wellFormed = true →
    (∀ now ticks rest, s.StepDue now ticks rest →
      step s = exec i (timerPhase now ticks (s.stepStart now rest)).advance) ∧
    (s.pending = [] →
      step s = exec i (timerPhase (freeNow s) (Config.ticks s.hostCalls) (s.stepStart (freeNow s) [])).advance)

/-- A Step while waiting for a key returns InvalidState and changes nothing of the block (R112; that the
timer phase is left out too is the spec's decision D5). -/
def Obligations.StepWhileWaitingChangesNothing : Prop :=
  ∀ (s : State) (now ticks : Nat) (rest : List HostCall), s.StepDue now ticks rest →
    s.runState = .waitingForKey →
    ∃ t, step s = .next t ∧ s.SameBlock t ∧ t.reply = .error .invalidState ∧
      t.errors = .invalidState :: s.errors

/-- A fetch at 4095 or above returns AddressOutOfRange(PC); only the timer phase has been done (R114; the
error is the spec's decision D9, the state left its decision D6). -/
def Obligations.FetchPastMemoryEnd : Prop :=
  ∀ (s : State) (now ticks : Nat) (rest : List HostCall), s.StepDue now ticks rest →
    s.runState = .running → 4095 ≤ s.pc.toNat →
    ∃ t, step s = .next t ∧ (timerPhase now ticks s).SameBlock t ∧
      t.reply = .error (.addressOutOfRange s.pc) ∧ t.errors = .addressOutOfRange s.pc :: s.errors

/-- R117: a fetched word that matches no row of R92 makes the Step return UnsupportedOpcode with the raw
word. (What state it leaves is in StepContract.) -/
def Obligations.UnmatchedWordIsUnsupported : Prop :=
  ∀ (s : State) (now ticks : Nat) (rest : List HostCall), s.StepDue now ticks rest →
    s.runState = .running → s.pc.toNat + 2 ≤ 4096 → (∀ r ∈ opcodeMap, r.covers s.wordAtPc = false) →
    ∃ t, step s = .next t ∧ t.reply = .error (.unsupportedOpcode s.wordAtPc)

/-- In a Step whose word is not FX15, DT and TICK_REF either stay or tick: DT was nonzero, the interval
exceeded the threshold strictly, DT is one less and TICK_REF is the Step's time (R240, R241; the interval
as `now - TICK_REF` is the spec's decision D3). -/
def Obligations.DelayTimerDropsByAtMostOne : Prop :=
  ∀ (s t : State) (now ticks : Nat) (rest : List HostCall), s.StepDue now ticks rest →
    step s = .next t → (∀ x, decodeWord s.wordAtPc ≠ some (.ldDtVx x)) →
    (t.dt = s.dt ∧ t.tickRef = s.tickRef) ∨
    (s.dt ≠ 0 ∧ now - s.tickRef > ticks ∧ t.dt.toNat + 1 = s.dt.toNat ∧ t.tickRef = now)

/-! ## Control transfer -/

/-- R131 and R137: 1NNN jumps to NNN, BNNN to NNN + V[0], not reduced; nothing else changes. -/
def Obligations.JumpsSetPc : Prop :=
  ∀ (nnn : BitVec 12) (s : State),
    (∃ t, exec (.jp nnn) s = .next t ∧ t = { s with pc := t.pc } ∧ t.pc.toNat = nnn.toNat) ∧
    (∃ t, exec (.jpV0 nnn) s = .next t ∧ t = { s with pc := t.pc } ∧
      t.pc.toNat = nnn.toNat + (s.reg 0).toNat) ∧
    OnRow (.jp nnn) 0x1000 0xF000 ∧ OnRow (.jpV0 nnn) 0xB000 0xF000

/-- 2NNN with fewer than sixteen entries in use pushes the advanced PC and jumps (R132; the organisation of
the stack is the spec's decision D8). -/
def Obligations.CallPushesReturnAddress : Prop :=
  ∀ (nnn : BitVec 12) (s : State), s.sp < 16 →
    ∃ t, exec (.call nnn) s = .next t ∧ t = { s with pc := t.pc, sp := t.sp, stack := t.stack } ∧
      t.pc.toNat = nnn.toNat ∧ t.sp = s.sp + 1 ∧ t.stack[s.sp]? = some s.pc ∧
      ∀ k, k ≠ s.sp → t.stack[k]? = s.stack[k]?

/-- 00EE with an entry in use pops it into PC; the entry itself stays (R130, R33; D8). -/
def Obligations.RetPopsReturnAddress : Prop :=
  ∀ s : State, 1 ≤ s.sp → s.sp ≤ 16 →
    ∃ t, exec .ret s = .next t ∧ t = { s with pc := t.pc, sp := t.sp } ∧ t.sp + 1 = s.sp ∧
      s.stack[s.sp - 1]? = some t.pc

/-- Returns come back to the instruction after the call, whatever PC the callee returns from (R31, R130,
R132). -/
def Obligations.CallThenRetReturns : Prop :=
  ∀ (nnn : BitVec 12) (s : State) (p : Word), s.sp < 16 →
    ∃ t u, exec (.call nnn) s = .next t ∧ exec .ret { t with pc := p } = .next u ∧
      u = { s with stack := u.stack } ∧ ∀ k, k ≠ s.sp → u.stack[k]? = s.stack[k]?

/-- The errors of instructions (R116, R130, R132, R183 to R185, R202; D6, D7, D9): the instruction writes
nothing and returns its error with its payload. SP above 16, which R46 calls illegal and never reached,
stops the machine. -/
def Obligations.InstructionErrors : Prop :=
  ∀ s : State,
    (s.sp = 0 → ∃ t, exec .ret s = .next t ∧ s.Raised t (.stackUnderflow 0x00EE)) ∧
    (∀ nnn : BitVec 12, s.sp = 16 →
      ∃ t w, exec (.call nnn) s = .next t ∧ s.Raised t (.stackOverflow w) ∧
        w.toNat = 0x2000 + nnn.toNat) ∧
    (∀ nnn : BitVec 12, 16 < s.sp →
      exec .ret s = .fault (.stackPointerOutOfRange s.sp) ∧
      exec (.call nnn) s = .fault (.stackPointerOutOfRange s.sp)) ∧
    (∀ x : RegIdx, 4096 < s.i.toNat + 3 →
      ∃ t, exec (.ldB x) s = .next t ∧ s.Raised t (.addressOutOfRange s.i)) ∧
    (∀ x : RegIdx, 4096 < s.i.toNat + (x.val + 1) →
      ∃ t, exec (.ldMemVx x) s = .next t ∧ s.Raised t (.addressOutOfRange s.i)) ∧
    (∀ x : RegIdx, 4096 < s.i.toNat + (x.val + 1) →
      ∃ t, exec (.ldVxMem x) s = .next t ∧ s.Raised t (.addressOutOfRange s.i)) ∧
    (∀ (x y : RegIdx) (n : Fin 16), n.val ≠ 0 → 4096 < s.i.toNat + n.val →
      ∃ t, exec (.drw x y n) s = .next t ∧ s.Raised t (.addressOutOfRange s.i))

/-- R133 and R134: 3XNN skips one word when V[X] is NN, 4XNN when it is not; nothing but PC changes. -/
def Obligations.SkipsOnImmediate : Prop :=
  ∀ (x : RegIdx) (nn : Byte) (s : State),
    (∃ t, exec (.seImm x nn) s = .next t ∧ t = { s with pc := t.pc } ∧
      (s.reg x = nn → t.pc = s.pc + 2) ∧ (s.reg x ≠ nn → t.pc = s.pc)) ∧
    (∃ t, exec (.sneImm x nn) s = .next t ∧ t = { s with pc := t.pc } ∧
      (s.reg x ≠ nn → t.pc = s.pc + 2) ∧ (s.reg x = nn → t.pc = s.pc)) ∧
    OnRow (.seImm x nn) 0x3000 0xF000 ∧ OnRow (.sneImm x nn) 0x4000 0xF000

/-- R135 and R136: 5XY0 skips one word when V[X] is V[Y], 9XY0 when it is not; nothing but PC changes. -/
def Obligations.SkipsOnRegisters : Prop :=
  ∀ (x y : RegIdx) (s : State),
    (∃ t, exec (.seReg x y) s = .next t ∧ t = { s with pc := t.pc } ∧
      (s.reg x = s.reg y → t.pc = s.pc + 2) ∧ (s.reg x ≠ s.reg y → t.pc = s.pc)) ∧
    (∃ t, exec (.sneReg x y) s = .next t ∧ t = { s with pc := t.pc } ∧
      (s.reg x ≠ s.reg y → t.pc = s.pc + 2) ∧ (s.reg x = s.reg y → t.pc = s.pc)) ∧
    OnRow (.seReg x y) 0x5000 0xF00F ∧ OnRow (.sneReg x y) 0x9000 0xF00F

/-! ## Register arithmetic and logic -/

/-- R152, R153 and R154: load an immediate, add one modulo 256, move a register; no flag and nothing but
V[X] changes. -/
def Obligations.LoadsMovesAndAddImmediate : Prop :=
  ∀ (x y : RegIdx) (nn : Byte) (s : State),
    (∃ t, exec (.ldImm x nn) s = .next t ∧ s.OnlyRegs t [x] ∧ t.reg x = nn) ∧
    (∃ t, exec (.addImm x nn) s = .next t ∧ s.OnlyRegs t [x] ∧
      (t.reg x).toNat = ((s.reg x).toNat + nn.toNat) % 256) ∧
    (∃ t, exec (.ldReg x y) s = .next t ∧ s.OnlyRegs t [x] ∧ t.reg x = s.reg y) ∧
    OnRow (.ldImm x nn) 0x6000 0xF000 ∧ OnRow (.addImm x nn) 0x7000 0xF000 ∧
    OnRow (.ldReg x y) 0x8000 0xF00F

/-- R155, R156 and R157: OR, AND and XOR bit by bit into V[X]; VF is unchanged unless X = F. -/
def Obligations.LogicIsBitwise : Prop :=
  ∀ (x y : RegIdx) (s : State),
    (∃ t, exec (.orReg x y) s = .next t ∧ s.OnlyRegs t [x] ∧
      ∀ k, (t.reg x).getLsbD k = ((s.reg x).getLsbD k || (s.reg y).getLsbD k)) ∧
    (∃ t, exec (.andReg x y) s = .next t ∧ s.OnlyRegs t [x] ∧
      ∀ k, (t.reg x).getLsbD k = ((s.reg x).getLsbD k && (s.reg y).getLsbD k)) ∧
    (∃ t, exec (.xorReg x y) s = .next t ∧ s.OnlyRegs t [x] ∧
      ∀ k, (t.reg x).getLsbD k = ((s.reg x).getLsbD k != (s.reg y).getLsbD k)) ∧
    OnRow (.orReg x y) 0x8001 0xF00F ∧ OnRow (.andReg x y) 0x8002 0xF00F ∧
    OnRow (.xorReg x y) 0x8003 0xF00F

/-- R158: V[X] is the sum modulo 256 and VF, written last, the carry: with X = F the carry is what stays. -/
def Obligations.AddSetsCarry : Prop :=
  ∀ (x y : RegIdx) (s : State),
    ∃ t, exec (.addReg x y) s = .next t ∧ s.OnlyRegs t [x, regF] ∧
      (x ≠ regF → (t.reg x).toNat = ((s.reg x).toNat + (s.reg y).toNat) % 256) ∧
      ((s.reg x).toNat + (s.reg y).toNat > 255 → t.reg regF = 1) ∧
      (¬ (s.reg x).toNat + (s.reg y).toNat > 255 → t.reg regF = 0) ∧
      OnRow (.addReg x y) 0x8004 0xF00F

/-- 8XY5 and 8XY7 for every X and Y, F included (R159, R161): the flag `f` is written to VF first, strictly
greater, and the difference is taken of the registers as they then stand. That order is the spec's
decision D13. -/
def Obligations.SubtractsWriteFlagFirst : Prop :=
  ∀ (x y : RegIdx) (s : State),
    (∃ t, ∃ f : Nat, exec (.sub x y) s = .next t ∧ s.OnlyRegs t [x, regF] ∧
      ((s.reg x).toNat > (s.reg y).toNat → f = 1) ∧ (¬ (s.reg x).toNat > (s.reg y).toNat → f = 0) ∧
      (x ≠ regF → (t.reg regF).toNat = f) ∧
      (t.reg x).toNat = ((if x = regF then f else (s.reg x).toNat) + 256 -
        (if y = regF then f else (s.reg y).toNat)) % 256) ∧
    (∃ t, ∃ f : Nat, exec (.subn x y) s = .next t ∧ s.OnlyRegs t [x, regF] ∧
      ((s.reg y).toNat > (s.reg x).toNat → f = 1) ∧ (¬ (s.reg y).toNat > (s.reg x).toNat → f = 0) ∧
      (x ≠ regF → (t.reg regF).toNat = f) ∧
      (t.reg x).toNat = ((if y = regF then f else (s.reg y).toNat) + 256 -
        (if x = regF then f else (s.reg x).toNat)) % 256) ∧
    OnRow (.sub x y) 0x8005 0xF00F ∧ OnRow (.subn x y) 0x8007 0xF00F

/-- 8XY6 and 8XYE for every X, F included, and any Y (R160, R162, R94): the bit shifted out is written to
VF first, then V[X] as it stands is shifted: with X = F, SHR leaves 0 and SHL twice the bit. That order
is the spec's decision D13. -/
def Obligations.ShiftsWriteFlagFirst : Prop :=
  ∀ (x y : RegIdx) (s : State),
    (∃ t, exec (.shr x y) s = .next t ∧ s.OnlyRegs t [x, regF] ∧
      (x ≠ regF → (t.reg x).toNat = (s.reg x).toNat / 2 ∧ (t.reg regF).toNat = (s.reg x).toNat % 2) ∧
      (x = regF → t.reg regF = 0)) ∧
    (∃ t, exec (.shl x y) s = .next t ∧ s.OnlyRegs t [x, regF] ∧
      (x ≠ regF → (t.reg x).toNat = (s.reg x).toNat * 2 % 256 ∧
        (t.reg regF).toNat = (s.reg x).toNat / 128) ∧
      (x = regF → (t.reg regF).toNat = 2 * ((s.reg x).toNat / 128))) ∧
    OnRow (.shr x y) 0x8006 0xF00F ∧ OnRow (.shl x y) 0x800E 0xF00F

/-- The two values of FLAG_ORDER differ only when X = F or Y = F, and in the variant VF ends as the flag
(R6, D13). -/
def Obligations.FlagOrdersAgreeOffF : Prop :=
  ∀ (x y : RegIdx) (s : State),
    (x ≠ regF → y ≠ regF →
      flagThenResult .snapshot x (fun r => greaterFlag (r.reg x) (r.reg y)) (fun r => r.reg x - r.reg y) s =
        flagThenResult .sequential x (fun r => greaterFlag (r.reg x) (r.reg y))
          (fun r => r.reg x - r.reg y) s ∧
      flagThenResult .snapshot x (fun r => greaterFlag (r.reg y) (r.reg x)) (fun r => r.reg y - r.reg x) s =
        flagThenResult .sequential x (fun r => greaterFlag (r.reg y) (r.reg x))
          (fun r => r.reg y - r.reg x) s) ∧
    (x ≠ regF →
      flagThenResult .snapshot x (fun r => lowBitFlag (r.reg x)) (fun r => r.reg x >>> 1) s =
        flagThenResult .sequential x (fun r => lowBitFlag (r.reg x)) (fun r => r.reg x >>> 1) s ∧
      flagThenResult .snapshot x (fun r => highBitFlag (r.reg x)) (fun r => r.reg x <<< 1) s =
        flagThenResult .sequential x (fun r => highBitFlag (r.reg x)) (fun r => r.reg x <<< 1) s) ∧
    (∀ f r : State → Byte, (flagThenResult .snapshot x f r s).reg regF = f s)

/-- CXNN writes a free byte masked by NN, so no bit outside NN is set, and nothing but V[X] and the count
of draws changes (R163; the free draw is the spec's decision D18, log 8). -/
def Obligations.RandomIsMaskedFreeByte : Prop :=
  ∀ (x : RegIdx) (nn : Byte) (s : State),
    ∃ t, exec (.rnd x nn) s = .next t ∧ t = { s with v := t.v, draws := s.draws + 1 } ∧
      (∀ y, y ≠ x → t.reg y = s.reg y) ∧ t.reg x = Config.rand8 s.draws &&& nn ∧
      t.reg x &&& ~~~ nn = 0

/-! ## Index register and memory -/

/-- R180 and R182: I takes NNN, or five times V[X] for every value of V[X]; nothing else changes. -/
def Obligations.LoadsOfIndex : Prop :=
  ∀ (nnn : BitVec 12) (x : RegIdx) (s : State),
    (∃ t, exec (.ldI nnn) s = .next t ∧ t = { s with i := t.i } ∧ t.i.toNat = nnn.toNat) ∧
    (∃ t, exec (.ldF x) s = .next t ∧ t = { s with i := t.i } ∧ t.i.toNat = (s.reg x).toNat * 5) ∧
    OnRow (.ldI nnn) 0xA000 0xF000 ∧ OnRow (.ldF x) 0xF029 0xF0FF

/-- FX1E adds V[X] to I modulo 65536, and VF is not written (R181; the latter is the spec's decision
D11). -/
def Obligations.AddToIndexWraps : Prop :=
  ∀ (x : RegIdx) (s : State),
    (∃ t, exec (.addI x) s = .next t ∧ t = { s with i := t.i } ∧
      t.i.toNat = (s.i.toNat + (s.reg x).toNat) % 65536) ∧
    OnRow (.addI x) 0xF01E 0xF0FF

/-- FX33 in range writes the three decimal digits at I, I+1 and I+2 and nothing else (R183; the range is
the spec's decision D9). -/
def Obligations.StoresDecimalDigits : Prop :=
  ∀ (x : RegIdx) (s : State), s.i.toNat + 3 ≤ 4096 →
    ∃ t, exec (.ldB x) s = .next t ∧ s.OnlyBytes t s.i.toNat 3 ∧
      (t.mem.byteAt s.i.toNat).toNat = (s.reg x).toNat / 100 ∧
      (t.mem.byteAt (s.i.toNat + 1)).toNat = (s.reg x).toNat / 10 % 10 ∧
      (t.mem.byteAt (s.i.toNat + 2)).toNat = (s.reg x).toNat % 10

/-- FX55 in range writes V[0] to V[X] from I on and nothing else, not even I (R184; that I stays is the
spec's decision D12, the range D9). -/
def Obligations.StoresRegisterBlock : Prop :=
  ∀ (x : RegIdx) (s : State), s.i.toNat + (x.val + 1) ≤ 4096 →
    ∃ t, exec (.ldMemVx x) s = .next t ∧ s.OnlyBytes t s.i.toNat (x.val + 1) ∧
      ∀ k : RegIdx, k.val ≤ x.val → t.mem.byteAt (s.i.toNat + k.val) = s.reg k

/-- FX65 in range loads V[0] to V[X] from I on and changes nothing else, not even I (R185; D9, D12). -/
def Obligations.LoadsRegisterBlock : Prop :=
  ∀ (x : RegIdx) (s : State), s.i.toNat + (x.val + 1) ≤ 4096 →
    ∃ t, exec (.ldVxMem x) s = .next t ∧ t = { s with v := t.v } ∧
      (∀ k : RegIdx, k.val ≤ x.val → t.reg k = s.mem.byteAt (s.i.toNat + k.val)) ∧
      ∀ k : RegIdx, x.val < k.val → t.reg k = s.reg k

/-- What FX55 stored FX65 loads back, into any registers, as long as I and Memory stand (R184, R185). -/
def Obligations.StoreThenLoadRestoresRegisters : Prop :=
  ∀ (x : RegIdx) (s t u : State), s.i.toNat + (x.val + 1) ≤ 4096 → exec (.ldMemVx x) s = .next t →
    u.mem = t.mem → u.i = t.i →
    ∃ w, exec (.ldVxMem x) u = .next w ∧ w = { u with v := w.v } ∧
      (∀ k : RegIdx, k.val ≤ x.val → w.reg k = s.reg k) ∧
      ∀ k : RegIdx, x.val < k.val → w.reg k = u.reg k

/-- The variants of OOR_POLICY and KEY_OOR_POLICY differ from the defaults only out of range (R6, D9, D17):
a block that lies in Memory passes the range check and is read and written alike, and a key index up to 15
is tested alike. -/
def Obligations.VariantsAgreeInRange : Prop :=
  (∀ a n : Nat, a + n ≤ 4096 → rangeOk .wrap4096 a n = rangeOk .fault a n ∧ rangeOk .fault a n = true) ∧
  (∀ (m : Memory) (a n : Nat), a + n ≤ 4096 →
    memReadBlock .wrap4096 m a n = memReadBlock .fault m a n) ∧
  (∀ (m : Memory) (a : Nat) (bs : List Byte), a + bs.length ≤ 4096 →
    memWriteBlock .wrap4096 m a bs = memWriteBlock .fault m a bs) ∧
  (∀ (p : Config.KeyOorPolicy) (keys : Word) (k : Byte), k.toNat ≤ 15 →
    keyPressed p keys k = keyPressed .notPressed keys k)

/-! ## Display -/

/-- R201: every cell is unset whatever it was, nothing else changes, and a second 00E0 changes nothing. -/
def Obligations.ClearUnsetsEveryCell : Prop :=
  ∀ s : State,
    (∃ t, exec .cls s = .next t ∧ t = { s with fb := t.fb } ∧
      (∀ c r, c < 64 → r < 32 → t.fb.cell c r = false) ∧ exec .cls t = .next t) ∧
    OnRow .cls 0x00E0 0xFFFF

/-- DXYN in range is the pixel rule at every cell at once: a cell flips exactly when the sprite has a
visible 1-bit there, VF is 1 exactly when such a cell was set, and nothing else changes; the origin is
what V[X] and V[Y] held before, X = F and Y = F included (R202 to R208; no wrap and the range are the
spec's decisions D16 and D9, the order of VF its decision D14). With N = 0 there is no range to check
(R209, D15). -/
def Obligations.DrawFollowsPixelRule : Prop :=
  ∀ (x y : RegIdx) (n : Fin 16) (s : State), (n.val = 0 ∨ s.i.toNat + n.val ≤ 4096) →
    ∃ t, exec (.drw x y n) s = .next t ∧ t = { s with v := t.v, fb := t.fb } ∧
      (∀ k, k ≠ regF → t.reg k = s.reg k) ∧
      (∀ c r, c < 64 → r < 32 →
        t.fb.cell c r =
          (s.fb.cell c r !=
            spritePixel s.mem s.i.toNat n.val (s.reg x).toNat (s.reg y).toNat c r)) ∧
      ((∃ c r, s.fb.cell c r = true ∧
          spritePixel s.mem s.i.toNat n.val (s.reg x).toNat (s.reg y).toNat c r = true) →
        t.reg regF = 1) ∧
      ((∀ c r, s.fb.cell c r = true →
          spritePixel s.mem s.i.toNat n.val (s.reg x).toNat (s.reg y).toNat c r = false) →
        t.reg regF = 0)

/-- DXY0 draws nothing, whatever I is, and clears VF (R209; the spec's decision D15). -/
def Obligations.DrawOfNoRows : Prop :=
  ∀ (x y : RegIdx) (s : State),
    ∃ t, exec (.drw x y 0) s = .next t ∧ s.OnlyRegs t [regF] ∧ t.reg regF = 0

/-- Drawing the same sprite at the same place twice restores the framebuffer, and the second draw reports a
collision exactly when a visible 1-bit fell on a cell that was unset before the first (R211). X and Y are
not F, so that the place is the same. -/
def Obligations.DrawTwiceRestores : Prop :=
  ∀ (x y : RegIdx) (n : Fin 16) (s : State), x ≠ regF → y ≠ regF →
    (n.val = 0 ∨ s.i.toNat + n.val ≤ 4096) →
    ∃ t u, exec (.drw x y n) s = .next t ∧ exec (.drw x y n) t = .next u ∧ u.fb = s.fb ∧
      ((∃ c r, s.fb.cell c r = false ∧
          spritePixel s.mem s.i.toNat n.val (s.reg x).toNat (s.reg y).toNat c r = true) →
        u.reg regF = 1) ∧
      ((∀ c r, s.fb.cell c r = false →
          spritePixel s.mem s.i.toNat n.val (s.reg x).toNat (s.reg y).toNat c r = false) →
        u.reg regF = 0)

/-! ## Timers, keys, ports -/

/-- R230: V[X] takes DT and nothing else changes. In a Step, DT is read after phase 1 of that Step: V[X]
and DT end as the timer phase left DT, and where DT changed V[X] is the decremented value. -/
def Obligations.ReadsDelayTimer : Prop :=
  ∀ (x : RegIdx) (s : State),
    (∃ t, exec (.ldVxDt x) s = .next t ∧ s.OnlyRegs t [x] ∧ t.reg x = s.dt) ∧
    (∀ now ticks rest, s.StepDue now ticks rest → s.runState = .running → s.pc.toNat + 2 ≤ 4096 →
      decodeWord s.wordAtPc = some (.ldVxDt x) →
      ∃ t, step s = .next t ∧ t.reg x = (timerPhase now ticks s).dt ∧
        t.dt = (timerPhase now ticks s).dt ∧ (t.dt ≠ s.dt → (t.reg x).toNat + 1 = s.dt.toNat)) ∧
    OnRow (.ldVxDt x) 0xF007 0xF0FF

/-- FX15 and FX18 write DT and ST from V[X] and change nothing else (R231, R232; that FX15 leaves TICK_REF
is the spec's decision D3). -/
def Obligations.WritesTimers : Prop :=
  ∀ (x : RegIdx) (s : State),
    (∃ t, exec (.ldDtVx x) s = .next t ∧ t = { s with dt := s.reg x }) ∧
    (∃ t, exec (.ldStVx x) s = .next t ∧ t = { s with st := s.reg x }) ∧
    OnRow (.ldDtVx x) 0xF015 0xF0FF ∧ OnRow (.ldStVx x) 0xF018 0xF0FF

/-- EX9E skips one word when key V[X] is pressed, EXA1 when it is not; an index above 15 counts as not
pressed; nothing but PC changes (R233, R234; the index above 15 is the spec's decision D17). -/
def Obligations.SkipsOnKey : Prop :=
  ∀ (x : RegIdx) (s : State), ∃ t u,
    exec (.skp x) s = .next t ∧ t = { s with pc := t.pc } ∧
    exec (.sknp x) s = .next u ∧ u = { s with pc := u.pc } ∧
    ((s.reg x).toNat ≤ 15 ∧ s.keys.getLsbD (s.reg x).toNat = true → t.pc = s.pc + 2 ∧ u.pc = s.pc) ∧
    (¬ ((s.reg x).toNat ≤ 15 ∧ s.keys.getLsbD (s.reg x).toNat = true) →
      t.pc = s.pc ∧ u.pc = s.pc + 2) ∧
    OnRow (.skp x) 0xE09E 0xF0FF ∧ OnRow (.sknp x) 0xE0A1 0xF0FF

/-- FX0A records X, waits and rewinds PC by 2 to its own address; V[X] is not written yet (R235). -/
def Obligations.WaitForKeyRewinds : Prop :=
  ∀ (x : RegIdx) (s : State),
    (∃ t, exec (.ldVxK x) s.advance = .next t ∧
      t = { s with waitX := x, runState := .waitingForKey }) ∧
    (∃ t, exec (.ldVxK x) s = .next t ∧
      t = { s with waitX := x, runState := .waitingForKey, pc := t.pc } ∧ t.pc + 2 = s.pc) ∧
    OnRow (.ldVxK x) 0xF00A 0xF0FF

/-- R250 and R252: KeyDown sets the key's bit; while running nothing else changes; while waiting it also
writes the key to V[WAIT_X], moves PC past the FX0A and runs again. -/
def Obligations.KeyDownSetsBitAndInjects : Prop :=
  ∀ (s : State) (k : Nat) (rest : List HostCall), s.pending = .keyDown k :: rest → k ≤ 15 →
    ∃ t, step s = .next t ∧
      (∀ j, j < 16 → t.keys.getLsbD j = (decide (j = k) || s.keys.getLsbD j)) ∧
      (s.runState = .running → { s with keys := t.keys }.SameBlock t) ∧
      (s.runState = .waitingForKey →
        { s with keys := t.keys, v := t.v, pc := s.pc + 2, runState := .running }.SameBlock t ∧
        (t.reg s.waitX).toNat = k ∧ ∀ y, y ≠ s.waitX → t.reg y = s.reg y)

/-- R251: KeyUp clears the key's bit in any state and changes nothing else. -/
def Obligations.KeyUpClearsBit : Prop :=
  ∀ (s : State) (k : Nat) (rest : List HostCall), s.pending = .keyUp k :: rest → k ≤ 15 →
    ∃ t, step s = .next t ∧ { s with keys := t.keys }.SameBlock t ∧
      ∀ j, j < 16 → t.keys.getLsbD j = (!decide (j = k) && s.keys.getLsbD j)

/-- FX0A and the KeyDown that comes after it together write the key to V[X] and move PC past the FX0A; a
key already held does not complete the wait (R235, R252, R254; C1). -/
def Obligations.KeyWaitCompletesByInjection : Prop :=
  ∀ (x : RegIdx) (s t : State) (k : Nat) (rest : List HostCall), exec (.ldVxK x) s.advance = .next t →
    k ≤ 15 → t.runState = .waitingForKey ∧
    ∃ u, step { t with pending := .keyDown k :: rest } = .next u ∧ u.runState = .running ∧
      u.pc = s.pc + 2 ∧ (u.reg x).toNat = k ∧ ∀ y, y ≠ x → u.reg y = s.reg y

/-- Which events change STATE: only a KeyDown or a Load ends a wait, and only a Step that executes FX0A,
whose X is then WAIT_X, begins one (R40, R41, R252, R254, R303). -/
def Obligations.OnlyTheseEventsChangeState : Prop :=
  ∀ s t : State, step s = .next t →
    (s.runState = .waitingForKey → t.runState = .running →
      ∃ rest, (∃ k, k ≤ 15 ∧ s.pending = .keyDown k :: rest) ∨
        ∃ bytes now, s.pending = .load bytes now :: rest) ∧
    (s.runState = .running → t.runState = .waitingForKey →
      (s.pending = [] ∨ ∃ now ticks rest, s.pending = .step now ticks :: rest) ∧
      s.pc.toNat + 2 ≤ 4096 ∧ ∃ x, decodeWord s.wordAtPc = some (.ldVxK x) ∧ t.waitX = x)

/-- DecST takes one from ST and stops at 0; ReadST and the framebuffer export return what they show and
change nothing of the block (R215, R245; stopping at 0 is the spec's decision D23). -/
def Obligations.PortsReadAndDecrement : Prop :=
  ∀ (s : State) (rest : List HostCall),
    (∃ t, step { s with pending := .decSt :: rest } = .next t ∧ { s with st := t.st }.SameBlock t ∧
      t.st.toNat = s.st.toNat - 1) ∧
    (∃ t, step { s with pending := .readSt :: rest } = .next t ∧ s.SameBlock t ∧
      t.reply = .soundTimer s.st) ∧
    (∃ t, step { s with pending := .exportFrame :: rest } = .next t ∧ s.SameBlock t ∧
      t.reply = .frame s.fb)

/-- FX18 and a DecST that overlaps it, in their two serial orders: ST ends as V[X] less one, or 0 when V[X]
is 0, with DecST after, and as V[X] with DecST before; no other outcome and nothing torn (R246; the
orders admitted are the spec's decision D24). -/
def Obligations.SoundTimerRaceIsSerial : Prop :=
  ∀ (x : RegIdx) (s : State) (rest : List HostCall),
    (∃ t u, exec (.ldStVx x) s = .next t ∧ step { t with pending := .decSt :: rest } = .next u ∧
      u.st.toNat = (s.reg x).toNat - 1) ∧
    (∃ t u, step { s with pending := .decSt :: rest } = .next t ∧ exec (.ldStVx x) t = .next u ∧
      u.st = s.reg x)

/-- No instruction reads ST: changing it changes nothing but ST in the outcome, and FX18 overwrites it
(R36, R120). -/
def Obligations.SoundTimerIsNeverRead : Prop :=
  ∀ (i : Instr) (s t : State) (b : Byte), exec i s = .next t →
    exec i { s with st := b } = .next { t with st := b } ∨
    ∃ x, i = .ldStVx x ∧ exec i { s with st := b } = .next t

/-! ## Load and reset -/

/-- Load of a program of at most 3504 bytes, in any state: Memory holds the font, the program at 512 and
zeros, every other element has its reset value, and TICK_REF is the call's time (R300, R301, R303; the
values are the spec's decisions D4, D20 and D21, the font's bytes log 7). -/
def Obligations.LoadResetsEverything : Prop :=
  ∀ (s : State) (bytes : List Byte) (now : Nat) (rest : List HostCall),
    s.pending = .load bytes now :: rest → s.hostNow ≤ now → 80 + 512 + bytes.length ≤ 4096 →
    ∃ t, step s = .next t ∧ t.reply = .ok ∧ t.errors = s.errors ∧
      { State.reset with mem := t.mem, tickRef := now }.SameBlock t ∧
      (∀ a, a < 80 → t.mem.byteAt a = font.getD a 0) ∧
      (∀ a, 80 ≤ a → a < 512 → t.mem.byteAt a = 0) ∧
      (∀ k, k < bytes.length → t.mem.byteAt (512 + k) = bytes.getD k 0) ∧
      (∀ a, 512 + bytes.length ≤ a → a < 4096 → t.mem.byteAt a = 0)

/-- Load of a longer program returns ProgramTooLarge and changes nothing of the block (R300; that registers
stay too is the spec's decision D34). -/
def Obligations.LoadTooLargeChangesNothing : Prop :=
  ∀ (s : State) (bytes : List Byte) (now : Nat) (rest : List HostCall),
    s.pending = .load bytes now :: rest → s.hostNow ≤ now → 4096 < 80 + 512 + bytes.length →
    ∃ t, step s = .next t ∧ s.SameBlock t ∧ t.reply = .error .programTooLarge ∧
      t.errors = .programTooLarge :: s.errors

/-- What reset leaves (R304): the values are the spec's decisions D20 and D21 but for STATE and Memory; the
font's bytes are log 7, TICK_REF = 0 is the model's choice, log 5. -/
def Obligations.ResetLeavesDecidedValues : Prop :=
  (∀ x, State.reset.reg x = 0) ∧ State.reset.i = 0 ∧ State.reset.pc = 0x200 ∧ State.reset.sp = 0 ∧
  (∀ k, k < 16 → State.reset.stack[k]? = some 0) ∧ State.reset.dt = 0 ∧ State.reset.st = 0 ∧
  (∀ c r, State.reset.fb.cell c r = false) ∧ State.reset.keys = 0 ∧ State.reset.runState = .running ∧
  State.reset.waitX = 0 ∧ State.reset.tickRef = 0 ∧
  (∀ a, a < 80 → State.reset.mem.byteAt a = font.getD a 0) ∧
  (∀ a, 80 ≤ a → State.reset.mem.byteAt a = 0)

/-- The machine at creation is what Load of the empty program leaves at the creation time, from any state
(R302, the spec's decision D20; that time is 0, log 5), and its first Step returns UnsupportedOpcode(0). -/
def Obligations.CreationIsLoadOfEmptyProgram : Prop :=
  (∀ (s : State) (rest : List HostCall), s.hostNow = 0 →
    ∃ t, step { s with pending := .load [] 0 :: rest } = .next t ∧ State.reset.SameBlock t) ∧
  ∃ t, step State.reset = .next t ∧ t.reply = .error (.unsupportedOpcode 0) ∧ t.pc = 0x202

/-! ## The whole machine -/

/-- Reset meets the invariant and the wait invariant. -/
def Obligations.ResetMeetsInvariant : Prop := State.reset.Inv ∧ State.reset.WaitInv

/-- Every step keeps the invariant: Memory in canonical form, SP at most 16 (R32), TICK_REF no later than
the host's time (R46). -/
def Obligations.StepKeepsInvariant : Prop := ∀ s t : State, s.Inv → step s = .next t → t.Inv

/-- From a state that meets the invariant no step faults: an error of the block is always a next state, so
the block accepts further transactions (R118). -/
def Obligations.InvariantStepNeverFaults : Prop := ∀ (s : State) (f : Fault), s.Inv → step s ≠ .fault f

/-- Every step keeps the wait invariant: while the block waits, PC points at the FX0A that entered the wait
and WAIT_X is its X (R41, R235, C1). -/
def Obligations.StepKeepsWaitInvariant : Prop :=
  ∀ s t : State, s.WaitInv → step s = .next t → t.WaitInv

/-- A step is refused exactly when its pending transaction breaks a host duty: a time that decreases or a
key above 15 (R122, R253, R312; the spec's decision D33). -/
def Obligations.RefusedExactlyOnBrokenDuty : Prop :=
  ∀ s : State, (∃ r, step s = .refused r) ↔
    ∃ rest, (∃ now ticks, s.pending = .step now ticks :: rest ∧ (now < s.hostNow ∨ now < s.tickRef)) ∨
      (∃ bytes now, s.pending = .load bytes now :: rest ∧ now < s.hostNow) ∨
      (∃ k, 15 < k ∧ (s.pending = .keyDown k :: rest ∨ s.pending = .keyUp k :: rest))

/-- Transactions are performed one a step in their order, and no transaction clears the record of errors
(R70, R277): a step adds at most one error to it, and then that error is its reply. -/
def Obligations.TransactionsRunInOrder : Prop :=
  ∀ s t : State, step s = .next t →
    t.pending = s.pending.tail ∧ t.hostCalls = s.hostCalls + 1 ∧
    (t.errors = s.errors ∨ ∃ e, t.errors = e :: s.errors ∧ t.reply = .error e)

/-- An instruction either completes without an error or writes nothing of its own, and each instruction has
the errors R271 gives it and no other (R116, R271, R275; the spec's decision D6). -/
def Obligations.FailingInstructionWritesNothing : Prop :=
  ∀ (i : Instr) (s t : State), exec i s = .next t →
    (t.errors = s.errors ∧ t.reply = s.reply) ∨
    ∃ e, s.Raised t e ∧
      ((i = .ret ∧ e = .stackUnderflow (encode i)) ∨
       (∃ nnn, i = .call nnn ∧ e = .stackOverflow (encode i)) ∨
       (e = .addressOutOfRange s.i ∧
         ((∃ x y n, i = .drw x y n ∧ n.val ≠ 0) ∨
          ∃ x, i = .ldB x ∨ i = .ldMemVx x ∨ i = .ldVxMem x)))

/-- Which instruction writes which element of the state, as R20's table and R26, R33, R36 and R60 give it:
each element that an instruction changed is one the table says it writes. A V register is changed only by an
instruction that names it as its destination, by FX65 for V[0] to V[X], or, if it is VF, by one that sets the
flag. PC, which exec finds already advanced, is changed only by jumps, call, return, skips and FX0A. KEYS,
TICK_REF and the model's own record of the host are changed by none. -/
def Obligations.OnlyTheWritersWrite : Prop :=
  ∀ (i : Instr) (s t : State), exec i s = .next t →
    (t.mem ≠ s.mem → ∃ x, i = .ldB x ∨ i = .ldMemVx x) ∧
    (t.fb ≠ s.fb → i = .cls ∨ ∃ x y n, i = .drw x y n) ∧
    (∀ k, t.reg k ≠ s.reg k →
      (∃ nn, i = .ldImm k nn ∨ i = .addImm k nn ∨ i = .rnd k nn) ∨
      (∃ y, i = .ldReg k y ∨ i = .orReg k y ∨ i = .andReg k y ∨ i = .xorReg k y) ∨
      (∃ x y, (k = x ∨ k = regF) ∧
        (i = .addReg x y ∨ i = .sub x y ∨ i = .shr x y ∨ i = .subn x y ∨ i = .shl x y)) ∨
      (k = regF ∧ ∃ x y n, i = .drw x y n) ∨
      i = .ldVxDt k ∨ ∃ x, k.val ≤ x.val ∧ i = .ldVxMem x) ∧
    (t.pc ≠ s.pc →
      i = .ret ∨ (∃ nnn, i = .jp nnn ∨ i = .call nnn ∨ i = .jpV0 nnn) ∨
      (∃ x nn, i = .seImm x nn ∨ i = .sneImm x nn) ∨ (∃ x y, i = .seReg x y ∨ i = .sneReg x y) ∨
      ∃ x, i = .skp x ∨ i = .sknp x ∨ i = .ldVxK x) ∧
    (t.i ≠ s.i → (∃ nnn, i = .ldI nnn) ∨ ∃ x, i = .addI x ∨ i = .ldF x) ∧
    (t.stack ≠ s.stack → ∃ nnn, i = .call nnn) ∧
    (t.sp ≠ s.sp → i = .ret ∨ ∃ nnn, i = .call nnn) ∧
    (t.dt ≠ s.dt → ∃ x, i = .ldDtVx x) ∧
    (t.st ≠ s.st → ∃ x, i = .ldStVx x) ∧
    (t.runState ≠ s.runState ∨ t.waitX ≠ s.waitX → ∃ x, i = .ldVxK x) ∧
    (t.draws ≠ s.draws → ∃ x nn, i = .rnd x nn) ∧
    t.keys = s.keys ∧ t.tickRef = s.tickRef ∧ t.hostNow = s.hostNow ∧ t.pending = s.pending ∧
    t.hostCalls = s.hostCalls

/-- R23: VF is changed only by the six instructions that set it, or by one whose destination it is. -/
def Obligations.OnlyFlagInstructionsWriteVf : Prop :=
  ∀ (i : Instr) (s t : State), exec i s = .next t → t.reg regF ≠ s.reg regF →
    (∃ x y, i = .addReg x y ∨ i = .sub x y ∨ i = .shr x y ∨ i = .subn x y ∨ i = .shl x y ∨
      ∃ n, i = .drw x y n) ∨
    (∃ nn, i = .ldImm regF nn ∨ i = .addImm regF nn ∨ i = .rnd regF nn) ∨
    (∃ y, i = .ldReg regF y ∨ i = .orReg regF y ∨ i = .andReg regF y ∨ i = .xorReg regF y) ∨
    i = .ldVxDt regF ∨ i = .ldVxMem regF

/-- At an idle loop a Step changes nothing of the block but the tick of its timer phase, and the loop
stands (R316, the spec's decision D31). -/
def Obligations.IdleLoopOnlyTicks : Prop :=
  ∀ (s : State) (now ticks : Nat) (rest : List HostCall), s.StepDue now ticks rest →
    s.atIdleLoop = true →
    ∃ t, step s = .next t ∧ (timerPhase now ticks s).SameBlock t ∧ t.errors = s.errors ∧
      t.atIdleLoop = true
end

