-- ==== Sys2Proof/Laws/State.lean ====
section
/-! SUPPORT. One lemma per field per update of the state, true by unfolding, and the reads of a register
after a write. -/

namespace Sys2Proof.Machine

/-! ## Registers -/

@[simp] theorem reg_setReg_self (s : State) (x : RegIdx) (b : Byte) : (s.setReg x b).reg x = b := by
  simp [State.reg, State.setReg]

theorem reg_setReg (s : State) (x y : RegIdx) (b : Byte) :
    (s.setReg x b).reg y = if y = x then b else s.reg y := by
  by_cases h : y = x
  · simp [h]
  · have : x.val ≠ y.val := fun e => h (Fin.ext e.symm)
    simp [State.reg, State.setReg, h, this]

@[simp] theorem reg_setReg_ne (s : State) {x y : RegIdx} (b : Byte) (h : y ≠ x) :
    (s.setReg x b).reg y = s.reg y := by
  simp [reg_setReg, h]

@[simp] theorem reg_setRegs (s : State) (bytes : List Byte) (y : RegIdx) :
    (s.setRegs bytes).reg y = bytes.getD y.val (s.reg y) := by
  simp [State.reg, State.setRegs]

/-- Two states with equal registers have equal register files. -/
theorem regFile_ext (s t : State) (h : ∀ y, t.reg y = s.reg y) : t.v = s.v := by
  exact Vector.ext fun k hk => h ⟨k, hk⟩

/-! ## Fields after `setReg` -/

@[simp] theorem setReg_mem (s : State) (x : RegIdx) (b : Byte) : (s.setReg x b).mem = s.mem := rfl
@[simp] theorem setReg_i (s : State) (x : RegIdx) (b : Byte) : (s.setReg x b).i = s.i := rfl
@[simp] theorem setReg_pc (s : State) (x : RegIdx) (b : Byte) : (s.setReg x b).pc = s.pc := rfl
@[simp] theorem setReg_stack (s : State) (x : RegIdx) (b : Byte) : (s.setReg x b).stack = s.stack := rfl
@[simp] theorem setReg_sp (s : State) (x : RegIdx) (b : Byte) : (s.setReg x b).sp = s.sp := rfl
@[simp] theorem setReg_dt (s : State) (x : RegIdx) (b : Byte) : (s.setReg x b).dt = s.dt := rfl
@[simp] theorem setReg_st (s : State) (x : RegIdx) (b : Byte) : (s.setReg x b).st = s.st := rfl
@[simp] theorem setReg_fb (s : State) (x : RegIdx) (b : Byte) : (s.setReg x b).fb = s.fb := rfl
@[simp] theorem setReg_keys (s : State) (x : RegIdx) (b : Byte) : (s.setReg x b).keys = s.keys := rfl
@[simp] theorem setReg_runState (s : State) (x : RegIdx) (b : Byte) : (s.setReg x b).runState = s.runState := rfl
@[simp] theorem setReg_waitX (s : State) (x : RegIdx) (b : Byte) : (s.setReg x b).waitX = s.waitX := rfl
@[simp] theorem setReg_tickRef (s : State) (x : RegIdx) (b : Byte) : (s.setReg x b).tickRef = s.tickRef := rfl
@[simp] theorem setReg_hostNow (s : State) (x : RegIdx) (b : Byte) : (s.setReg x b).hostNow = s.hostNow := rfl
@[simp] theorem setReg_pending (s : State) (x : RegIdx) (b : Byte) : (s.setReg x b).pending = s.pending := rfl
@[simp] theorem setReg_reply (s : State) (x : RegIdx) (b : Byte) : (s.setReg x b).reply = s.reply := rfl
@[simp] theorem setReg_errors (s : State) (x : RegIdx) (b : Byte) : (s.setReg x b).errors = s.errors := rfl
@[simp] theorem setReg_draws (s : State) (x : RegIdx) (b : Byte) : (s.setReg x b).draws = s.draws := rfl
@[simp] theorem setReg_hostCalls (s : State) (x : RegIdx) (b : Byte) : (s.setReg x b).hostCalls = s.hostCalls := rfl

/-! ## Fields after `setRegs` -/

@[simp] theorem setRegs_mem (s : State) (bytes : List Byte) : (s.setRegs bytes).mem = s.mem := rfl
@[simp] theorem setRegs_i (s : State) (bytes : List Byte) : (s.setRegs bytes).i = s.i := rfl
@[simp] theorem setRegs_pc (s : State) (bytes : List Byte) : (s.setRegs bytes).pc = s.pc := rfl
@[simp] theorem setRegs_stack (s : State) (bytes : List Byte) : (s.setRegs bytes).stack = s.stack := rfl
@[simp] theorem setRegs_sp (s : State) (bytes : List Byte) : (s.setRegs bytes).sp = s.sp := rfl
@[simp] theorem setRegs_dt (s : State) (bytes : List Byte) : (s.setRegs bytes).dt = s.dt := rfl
@[simp] theorem setRegs_st (s : State) (bytes : List Byte) : (s.setRegs bytes).st = s.st := rfl
@[simp] theorem setRegs_fb (s : State) (bytes : List Byte) : (s.setRegs bytes).fb = s.fb := rfl
@[simp] theorem setRegs_keys (s : State) (bytes : List Byte) : (s.setRegs bytes).keys = s.keys := rfl
@[simp] theorem setRegs_runState (s : State) (bytes : List Byte) : (s.setRegs bytes).runState = s.runState := rfl
@[simp] theorem setRegs_waitX (s : State) (bytes : List Byte) : (s.setRegs bytes).waitX = s.waitX := rfl
@[simp] theorem setRegs_tickRef (s : State) (bytes : List Byte) : (s.setRegs bytes).tickRef = s.tickRef := rfl
@[simp] theorem setRegs_hostNow (s : State) (bytes : List Byte) : (s.setRegs bytes).hostNow = s.hostNow := rfl
@[simp] theorem setRegs_pending (s : State) (bytes : List Byte) : (s.setRegs bytes).pending = s.pending := rfl
@[simp] theorem setRegs_reply (s : State) (bytes : List Byte) : (s.setRegs bytes).reply = s.reply := rfl
@[simp] theorem setRegs_errors (s : State) (bytes : List Byte) : (s.setRegs bytes).errors = s.errors := rfl
@[simp] theorem setRegs_draws (s : State) (bytes : List Byte) : (s.setRegs bytes).draws = s.draws := rfl
@[simp] theorem setRegs_hostCalls (s : State) (bytes : List Byte) : (s.setRegs bytes).hostCalls = s.hostCalls := rfl

/-! ## Fields after `advance` -/

@[simp] theorem advance_mem (s : State) : (s.advance).mem = s.mem := rfl
@[simp] theorem advance_v (s : State) : (s.advance).v = s.v := rfl
@[simp] theorem advance_i (s : State) : (s.advance).i = s.i := rfl
@[simp] theorem advance_stack (s : State) : (s.advance).stack = s.stack := rfl
@[simp] theorem advance_sp (s : State) : (s.advance).sp = s.sp := rfl
@[simp] theorem advance_dt (s : State) : (s.advance).dt = s.dt := rfl
@[simp] theorem advance_st (s : State) : (s.advance).st = s.st := rfl
@[simp] theorem advance_fb (s : State) : (s.advance).fb = s.fb := rfl
@[simp] theorem advance_keys (s : State) : (s.advance).keys = s.keys := rfl
@[simp] theorem advance_runState (s : State) : (s.advance).runState = s.runState := rfl
@[simp] theorem advance_waitX (s : State) : (s.advance).waitX = s.waitX := rfl
@[simp] theorem advance_tickRef (s : State) : (s.advance).tickRef = s.tickRef := rfl
@[simp] theorem advance_hostNow (s : State) : (s.advance).hostNow = s.hostNow := rfl
@[simp] theorem advance_pending (s : State) : (s.advance).pending = s.pending := rfl
@[simp] theorem advance_reply (s : State) : (s.advance).reply = s.reply := rfl
@[simp] theorem advance_errors (s : State) : (s.advance).errors = s.errors := rfl
@[simp] theorem advance_draws (s : State) : (s.advance).draws = s.draws := rfl
@[simp] theorem advance_hostCalls (s : State) : (s.advance).hostCalls = s.hostCalls := rfl

/-! ## Fields after `skipIf` -/

@[simp] theorem skipIf_mem (s : State) (c : Bool) : (State.skipIf c s).mem = s.mem := by
  cases c <;> rfl
@[simp] theorem skipIf_v (s : State) (c : Bool) : (State.skipIf c s).v = s.v := by
  cases c <;> rfl
@[simp] theorem skipIf_i (s : State) (c : Bool) : (State.skipIf c s).i = s.i := by
  cases c <;> rfl
@[simp] theorem skipIf_stack (s : State) (c : Bool) : (State.skipIf c s).stack = s.stack := by
  cases c <;> rfl
@[simp] theorem skipIf_sp (s : State) (c : Bool) : (State.skipIf c s).sp = s.sp := by
  cases c <;> rfl
@[simp] theorem skipIf_dt (s : State) (c : Bool) : (State.skipIf c s).dt = s.dt := by
  cases c <;> rfl
@[simp] theorem skipIf_st (s : State) (c : Bool) : (State.skipIf c s).st = s.st := by
  cases c <;> rfl
@[simp] theorem skipIf_fb (s : State) (c : Bool) : (State.skipIf c s).fb = s.fb := by
  cases c <;> rfl
@[simp] theorem skipIf_keys (s : State) (c : Bool) : (State.skipIf c s).keys = s.keys := by
  cases c <;> rfl
@[simp] theorem skipIf_runState (s : State) (c : Bool) : (State.skipIf c s).runState = s.runState := by
  cases c <;> rfl
@[simp] theorem skipIf_waitX (s : State) (c : Bool) : (State.skipIf c s).waitX = s.waitX := by
  cases c <;> rfl
@[simp] theorem skipIf_tickRef (s : State) (c : Bool) : (State.skipIf c s).tickRef = s.tickRef := by
  cases c <;> rfl
@[simp] theorem skipIf_hostNow (s : State) (c : Bool) : (State.skipIf c s).hostNow = s.hostNow := by
  cases c <;> rfl
@[simp] theorem skipIf_pending (s : State) (c : Bool) : (State.skipIf c s).pending = s.pending := by
  cases c <;> rfl
@[simp] theorem skipIf_reply (s : State) (c : Bool) : (State.skipIf c s).reply = s.reply := by
  cases c <;> rfl
@[simp] theorem skipIf_errors (s : State) (c : Bool) : (State.skipIf c s).errors = s.errors := by
  cases c <;> rfl
@[simp] theorem skipIf_draws (s : State) (c : Bool) : (State.skipIf c s).draws = s.draws := by
  cases c <;> rfl
@[simp] theorem skipIf_hostCalls (s : State) (c : Bool) : (State.skipIf c s).hostCalls = s.hostCalls := by
  cases c <;> rfl

/-! ## Fields after `begin` -/

@[simp] theorem begin_mem (s : State) : (s.begin).mem = s.mem := rfl
@[simp] theorem begin_v (s : State) : (s.begin).v = s.v := rfl
@[simp] theorem begin_i (s : State) : (s.begin).i = s.i := rfl
@[simp] theorem begin_pc (s : State) : (s.begin).pc = s.pc := rfl
@[simp] theorem begin_stack (s : State) : (s.begin).stack = s.stack := rfl
@[simp] theorem begin_sp (s : State) : (s.begin).sp = s.sp := rfl
@[simp] theorem begin_dt (s : State) : (s.begin).dt = s.dt := rfl
@[simp] theorem begin_st (s : State) : (s.begin).st = s.st := rfl
@[simp] theorem begin_fb (s : State) : (s.begin).fb = s.fb := rfl
@[simp] theorem begin_keys (s : State) : (s.begin).keys = s.keys := rfl
@[simp] theorem begin_runState (s : State) : (s.begin).runState = s.runState := rfl
@[simp] theorem begin_waitX (s : State) : (s.begin).waitX = s.waitX := rfl
@[simp] theorem begin_tickRef (s : State) : (s.begin).tickRef = s.tickRef := rfl
@[simp] theorem begin_hostNow (s : State) : (s.begin).hostNow = s.hostNow := rfl
@[simp] theorem begin_pending (s : State) : (s.begin).pending = s.pending := rfl
@[simp] theorem begin_errors (s : State) : (s.begin).errors = s.errors := rfl
@[simp] theorem begin_draws (s : State) : (s.begin).draws = s.draws := rfl

/-! ## The fields an update writes -/

@[simp] theorem advance_pc (s : State) : s.advance.pc = s.pc + 2 := rfl
@[simp] theorem skipIf_pc (s : State) (c : Bool) : (State.skipIf c s).pc = if c then s.pc + 2 else s.pc := by
  cases c <;> rfl
@[simp] theorem begin_reply (s : State) : s.begin.reply = .ok := rfl
@[simp] theorem begin_hostCalls (s : State) : s.begin.hostCalls = s.hostCalls + 1 := rfl
@[simp] theorem reg_advance (s : State) (x : RegIdx) : s.advance.reg x = s.reg x := rfl
@[simp] theorem reg_begin (s : State) (x : RegIdx) : s.begin.reg x = s.reg x := rfl
@[simp] theorem reg_skipIf (s : State) (c : Bool) (x : RegIdx) : (State.skipIf c s).reg x = s.reg x := by
  cases c <;> rfl

/-- A register write changes the register file and nothing else. -/
theorem setReg_onlyRegs (s : State) (x : RegIdx) (b : Byte) : s.OnlyRegs (s.setReg x b) [x] :=
  ⟨rfl, fun _ h => reg_setReg_ne s b (by simpa using h)⟩

/-- A skip changes PC and nothing else. -/
theorem skipIf_onlyPc (s : State) (c : Bool) :
    State.skipIf c s = { s with pc := (State.skipIf c s).pc } := by
  cases c <;> rfl

/-- What a skip makes of the state. -/
theorem skipIf_eq (s : State) (c : Bool) :
    State.skipIf c s = { s with pc := if c then s.pc + 2 else s.pc } := by
  cases c <;> rfl

end Sys2Proof.Machine
end

