-- ==== Sys2Proof/Laws/Memory.lean ====
section
/-! SUPPORT. The laws of Memory: read after write, other bytes untouched, the canonical form kept, and
what the block reads and writes answer. -/

namespace Sys2Proof.Machine

/-! ## One byte -/

theorem listed_put (m : Memory) (a k : Nat) (b : Byte) :
    (m.put a b).listed k = if k = a then some b else m.listed k := by
  induction m with
  | nil =>
    by_cases h : k = a <;> simp [Memory.put, Memory.listed, h, eq_comm]
    intro h'; exact absurd h'.symm h
  | cons c rest ih =>
    obtain ⟨c, v⟩ := c
    simp only [Memory.put]
    split
    · by_cases h : k = a
      · simp [Memory.listed, h]
      · have : a ≠ k := fun e => h e.symm
        simp [Memory.listed, h, this]
    · split
      · rename_i hac
        by_cases h : k = a
        · simp [Memory.listed, h]
        · have ha : a ≠ k := fun e => h e.symm
          have hc : c ≠ k := hac ▸ ha
          simp [Memory.listed, h, ha, hc]
      · by_cases h : c = k
        · have : k ≠ a := by omega
          simp [Memory.listed, h, this]
        · simp [Memory.listed, h, ih]

theorem listed_filter (m : Memory) (a k : Nat) :
    Memory.listed (m.filter (fun c => c.1 != a)) k = if k = a then none else m.listed k := by
  induction m with
  | nil => simp [Memory.listed]
  | cons c rest ih =>
    obtain ⟨c, v⟩ := c
    by_cases hc : c = a
    · subst hc
      rw [List.filter_cons_of_neg (by simp), ih]
      by_cases h : k = c
      · simp [h]
      · have : c ≠ k := fun e => h e.symm
        simp [h, Memory.listed, this]
    · rw [List.filter_cons_of_pos (by simpa using hc)]
      by_cases h : c = k
      · have : k ≠ a := by omega
        simp [Memory.listed, h, this]
      · simp [Memory.listed, h, ih]

/-- A read of a byte after a write of a byte. -/
theorem byteAt_setByte (m : Memory) (a k : Nat) (b : Byte) :
    (m.setByte a b).byteAt k = if k = a then b else m.byteAt k := by
  unfold Memory.setByte Memory.byteAt
  split
  · rw [listed_filter]
    by_cases h : k = a <;> simp_all
  · rw [listed_put]
    by_cases h : k = a <;> simp [h]

@[simp] theorem byteAt_setByte_self (m : Memory) (a : Nat) (b : Byte) :
    (m.setByte a b).byteAt a = b := by simp [byteAt_setByte]

@[simp] theorem byteAt_setByte_ne (m : Memory) {a k : Nat} (b : Byte) (h : k ≠ a) :
    (m.setByte a b).byteAt k = m.byteAt k := by simp [byteAt_setByte, h]

/-! ## The canonical form -/

theorem wf_cons (c : Host.Cell) (m : Memory) :
    Memory.wf (c :: m) = true ↔
      c.1 < 4096 ∧ c.2 ≠ Memory.unlisted c.1 ∧ (∀ d ∈ m, c.1 < d.1) ∧ m.wf = true := by
  obtain ⟨a, b⟩ := c
  simp [Memory.wf, Config.memSize, and_assoc]

theorem mem_put (m : Memory) (a : Nat) (b : Byte) (d : Host.Cell) (h : d ∈ m.put a b) :
    d = (a, b) ∨ d ∈ m := by
  induction m with
  | nil => simpa [Memory.put] using h
  | cons c rest ih =>
    obtain ⟨c, v⟩ := c
    simp only [Memory.put] at h
    split at h
    · simpa using h
    · split at h
      · rcases List.mem_cons.1 h with h | h
        · exact .inl h
        · exact .inr (List.mem_cons_of_mem _ h)
      · rcases List.mem_cons.1 h with h | h
        · exact .inr (by simp [h])
        · exact (ih h).imp_right (List.mem_cons_of_mem _)

theorem wf_put (m : Memory) (a : Nat) (b : Byte) (ha : a < 4096) (hb : b ≠ Memory.unlisted a)
    (h : m.wf = true) : (m.put a b).wf = true := by
  induction m with
  | nil => simp [Memory.put, ha, hb, Memory.wf]
  | cons c rest ih =>
    obtain ⟨hc, hv, hlt, hr⟩ := (wf_cons c rest).1 h
    obtain ⟨c, v⟩ := c
    simp only [Memory.put]
    split
    · rename_i hac
      refine (wf_cons _ _).2 ⟨ha, hb, fun d hd => ?_, h⟩
      rcases List.mem_cons.1 hd with rfl | hd
      · exact hac
      · exact Nat.lt_trans hac (hlt d hd)
    · split
      · rename_i hac
        subst hac
        exact (wf_cons _ _).2 ⟨hc, hb, hlt, hr⟩
      · refine (wf_cons _ _).2 ⟨hc, hv, fun d hd => ?_, ih hr⟩
        rcases mem_put rest a b d hd with rfl | hd
        · show c < a
          omega
        · exact hlt d hd

theorem wf_filter (m : Memory) (p : Host.Cell → Bool) (h : m.wf = true) :
    Memory.wf (m.filter p) = true := by
  induction m with
  | nil => simpa using h
  | cons c rest ih =>
    obtain ⟨hc, hv, hlt, hr⟩ := (wf_cons c rest).1 h
    by_cases hp : p c = true
    · rw [List.filter_cons_of_pos hp]
      exact (wf_cons _ _).2 ⟨hc, hv, fun d hd => hlt d (List.mem_of_mem_filter hd), ih hr⟩
    · rw [List.filter_cons_of_neg hp]
      exact ih hr

/-- A write at an address that exists keeps the canonical form. -/
theorem wf_setByte (m : Memory) (a : Nat) (b : Byte) (ha : a < 4096) (h : m.wf = true) :
    (m.setByte a b).wf = true := by
  unfold Memory.setByte
  split
  · exact wf_filter m _ h
  · exact wf_put m a b ha ‹_› h

/-- Memory after creation is in canonical form. -/
theorem wf_nil : Memory.wf [] = true := rfl

theorem listed_of_wf_mem {m : Memory} {a : Nat} {b : Byte} (h : m.wf = true) (hm : (a, b) ∈ m) :
    m.listed a = some b := by
  induction m with
  | nil => cases hm
  | cons c rest ih =>
    obtain ⟨-, -, hlt, hr⟩ := (wf_cons c rest).1 h
    rcases List.mem_cons.1 hm with rfl | hm'
    · simp [Memory.listed]
    · have : c.1 ≠ a := Nat.ne_of_lt (hlt _ hm')
      obtain ⟨c, v⟩ := c
      simpa [Memory.listed, this] using ih hr hm'

/-! ## Bytes in a row -/

theorem byteAt_setBytes (m : Memory) (a k : Nat) (bs : List Byte) :
    (m.setBytes a bs).byteAt k =
      if a ≤ k ∧ k < a + bs.length then bs.getD (k - a) 0 else m.byteAt k := by
  induction bs generalizing m a with
  | nil => simp [Memory.setBytes]
  | cons b bs ih =>
    rw [Memory.setBytes, ih]
    by_cases hk : k = a
    · subst hk; simp
    · rw [byteAt_setByte_ne _ _ hk]
      by_cases h1 : a ≤ k ∧ k < a + (b :: bs).length
      · have h2 : a + 1 ≤ k ∧ k < a + 1 + bs.length := by simp at h1; omega
        rw [if_pos h1, if_pos h2]
        obtain ⟨j, hj⟩ : ∃ j, k - a = j + 1 := ⟨k - a - 1, by omega⟩
        have hj' : k - (a + 1) = j := by omega
        simp [hj, hj']
      · have h2 : ¬ (a + 1 ≤ k ∧ k < a + 1 + bs.length) := by simp at h1; omega
        rw [if_neg h1, if_neg h2]

theorem wf_setBytes (m : Memory) (a : Nat) (bs : List Byte) (ha : a + bs.length ≤ 4096)
    (h : m.wf = true) : (m.setBytes a bs).wf = true := by
  induction bs generalizing m a with
  | nil => exact h
  | cons b bs ih =>
    simp only [List.length_cons] at ha
    exact ih _ _ (by omega) (wf_setByte m a b (by omega) h)

/-! ## The block operations, in the default policy -/

theorem rangeOk_fault (a n : Nat) :
    rangeOk .fault a n = true ↔ n = 0 ∨ a + n ≤ 4096 := by
  simp [rangeOk, Config.memSize]

/-- A block in range reads as its bytes. -/
theorem memReadBlock_fault (m : Memory) (a n : Nat) (h : n = 0 ∨ a + n ≤ 4096) :
    memReadBlock .fault m a n = some ((List.range n).map fun k => m.byteAt (a + k)) := by
  induction n generalizing a with
  | zero => rfl
  | succ n ih =>
    have ha : a < 4096 := by omega
    rw [memReadBlock, memRead, effectiveAddress, if_pos (by simpa [Config.memSize] using ha)]
    simp only [ih (a + 1) (by omega), Option.map_some, List.range_succ_eq_map, List.map_cons,
      List.map_map, Nat.add_zero]
    congr 2
    apply List.map_congr_left
    intro k _
    show m.byteAt (a + 1 + k) = m.byteAt (a + (k + 1))
    congr 1; omega

/-- A block in range is written as its bytes. -/
theorem memWriteBlock_fault (m : Memory) (a : Nat) (bs : List Byte)
    (h : bs.length = 0 ∨ a + bs.length ≤ 4096) :
    memWriteBlock .fault m a bs = some (m.setBytes a bs) := by
  induction bs generalizing m a with
  | nil => rfl
  | cons b bs ih =>
    simp only [List.length_cons] at h
    have ha : a < 4096 := by omega
    rw [memWriteBlock, memWrite, effectiveAddress, if_pos (by simpa [Config.memSize] using ha)]
    exact ih _ _ (by omega)

/-- Any write the block makes keeps the canonical form, in either policy. -/
theorem wf_memWriteBlock (p : Config.OorPolicy) (m m' : Memory) (a : Nat) (bs : List Byte)
    (h : m.wf = true) (hw : memWriteBlock p m a bs = some m') : m'.wf = true := by
  induction bs generalizing m a with
  | nil => cases hw; exact h
  | cons b bs ih =>
    rw [memWriteBlock, memWrite] at hw
    split at hw
    · cases hw
    · rename_i m1 hm1
      split at hm1
      · cases hm1
        exact ih _ _ (wf_setByte m _ b ‹_› h) hw
      · cases hm1

end Sys2Proof.Machine
end

