-- ==== Sys2Proof/Laws/Ops.lean ====
section
/-! SUPPORT. What each shared operation can answer, said once: errors, block accesses, the flag orders,
the key test. -/

namespace Sys2Proof.Machine

/-! ## The parameters -/

@[simp] theorem params_flagOrder : params.flagOrder = .sequential := rfl
@[simp] theorem params_oorPolicy : params.oorPolicy = .fault := rfl
@[simp] theorem params_keyOorPolicy : params.keyOorPolicy = .notPressed := rfl
@[simp] theorem params_tickResetOnFx15 : params.tickResetOnFx15 = false := rfl
@[simp] theorem params_resetArbitrary : params.resetArbitrary = false := rfl

/-! ## Errors -/

/-- An error is returned and nothing else is done. -/
theorem raise_eq (e : CoreError) (s : State) :
    ∃ t, raise e s = .next t ∧ s.Raised t e := ⟨_, rfl, rfl⟩

/-! ## Block accesses -/

/-- The sprite or register bytes an instruction reads from `I` on. -/
theorem withBlock_in (n : Nat) (s : State) (use : List Byte → Result)
    (h : n = 0 ∨ s.i.toNat + n ≤ 4096) :
    withBlock n s use = use ((List.range n).map fun k => s.mem.byteAt (s.i.toNat + k)) := by
  unfold withBlock
  rw [params_oorPolicy, if_pos ((rangeOk_fault _ _).2 h), memReadBlock_fault _ _ _ h]

theorem withBlock_out (n : Nat) (s : State) (use : List Byte → Result)
    (h : ¬ (n = 0 ∨ s.i.toNat + n ≤ 4096)) :
    withBlock n s use = raise (.addressOutOfRange s.i) s := by
  unfold withBlock
  rw [params_oorPolicy, if_neg (by rw [rangeOk_fault]; exact h)]

theorem storeBlock_in (bs : List Byte) (s : State) (h : bs.length = 0 ∨ s.i.toNat + bs.length ≤ 4096) :
    storeBlock bs s = .next { s with mem := s.mem.setBytes s.i.toNat bs } := by
  unfold storeBlock
  rw [params_oorPolicy, if_pos ((rangeOk_fault _ _).2 h), memWriteBlock_fault _ _ _ h]

theorem storeBlock_out (bs : List Byte) (s : State)
    (h : ¬ (bs.length = 0 ∨ s.i.toNat + bs.length ≤ 4096)) :
    storeBlock bs s = raise (.addressOutOfRange s.i) s := by
  unfold storeBlock
  rw [params_oorPolicy, if_neg (by rw [rangeOk_fault]; exact h)]

/-- A store answers a next state that differs in Memory only, or the error. -/
theorem storeBlock_cases (bs : List Byte) (s : State) :
    storeBlock bs s = .next { s with mem := s.mem.setBytes s.i.toNat bs } ∧
        (bs.length = 0 ∨ s.i.toNat + bs.length ≤ 4096) ∨
      storeBlock bs s = raise (.addressOutOfRange s.i) s := by
  by_cases h : bs.length = 0 ∨ s.i.toNat + bs.length ≤ 4096
  · exact .inl ⟨storeBlock_in bs s h, h⟩
  · exact .inr (storeBlock_out bs s h)

@[simp] theorem length_regsTo (s : State) (x : RegIdx) : (s.regsTo x).length = x.val + 1 := by
  simp [State.regsTo]

@[simp] theorem length_decimalDigits (b : Byte) : (decimalDigits b).length = 3 := by simp [decimalDigits]

/-- The bytes that FX55 stores are the registers. -/
theorem getD_regsTo (s : State) (x y : RegIdx) (h : y.val ≤ x.val) :
    (s.regsTo x).getD y.val 0 = s.reg y := by
  have : y.val < x.val + 1 := by omega
  simp [State.regsTo, State.reg, this]

/-! ## Flags -/

theorem resultThenFlag_onlyRegs (x : RegIdx) (r f : Byte) (s : State) :
    s.OnlyRegs (resultThenFlag x r f s) [x, regF] := by
  refine ⟨rfl, fun y hy => ?_⟩
  simp only [List.mem_cons, List.not_mem_nil, or_false, not_or] at hy
  rw [resultThenFlag, reg_setReg_ne _ _ hy.2, reg_setReg_ne _ _ hy.1]

theorem flagThenResult_onlyRegs (o : Config.FlagOrder) (x : RegIdx) (f r : State → Byte) (s : State) :
    s.OnlyRegs (flagThenResult o x f r s) [x, regF] := by
  cases o
  · refine ⟨rfl, fun y hy => ?_⟩
    simp only [List.mem_cons, List.not_mem_nil, or_false, not_or] at hy
    rw [flagThenResult, reg_setReg_ne _ _ hy.1, reg_setReg_ne _ _ hy.2]
  · exact resultThenFlag_onlyRegs x _ _ s

/-! ## Keys -/

theorem keyPressed_default (keys : Word) (k : Byte) :
    keyPressed .notPressed keys k = some (decide (k.toNat ≤ 15) && keys.getLsbD k.toNat) := by
  unfold keyPressed
  split <;> simp [*]

/-! ## The framebuffer -/

@[simp] theorem cell_empty (c r : Nat) : FrameBuffer.empty.cell c r = false := by
  simp [FrameBuffer.cell, FrameBuffer.empty]

theorem cell_flip (fb : FrameBuffer) (c r c' r' : Nat) (hc : c < 64) (hr : r < 32) :
    (fb.flip c r).cell c' r' = if c' = c ∧ r' = r then !fb.cell c r else fb.cell c' r' := by
  unfold FrameBuffer.flip FrameBuffer.cell
  simp only [hc, hr, and_self, dif_pos]
  by_cases h : c' < 64 ∧ r' < 32
  · simp only [h, and_self, dif_pos]
    by_cases h2 : r' = r
    · subst h2
      by_cases h1 : c' = c
      · subst h1; simp
      · have : c ≠ c' := fun e => h1 e.symm
        simp [h1, this]
    · have : r ≠ r' := fun e => h2 e.symm
      simp [h2, this]
  · have : ¬ (c' = c ∧ r' = r) := by omega
    simp [h, this]

/-- Two grids with the same cells on the screen are equal. -/
theorem FrameBuffer.ext_cell (f g : FrameBuffer) (h : ∀ c r, f.cell c r = g.cell c r) : f = g := by
  refine Vector.ext fun r hr => Vector.ext fun c hc => ?_
  have := h c r
  simpa [FrameBuffer.cell, hc, hr] using this

end Sys2Proof.Machine
end

