-- ==== Sys2Proof/Laws/Display.lean ====
section
/-! SUPPORT. The sprite compositor, said once: which cells it flips and when it reports a collision. -/

namespace Sys2Proof.Machine

/-- One 1-bit flips its cell, if that is on the screen, and no other. -/
theorem plot_cell (c r : Nat) (hr : r < 32) (acc : FrameBuffer × Bool) (c' r' : Nat) :
    (plot c r acc).1.cell c' r' =
      (acc.1.cell c' r' != (decide (c' = c ∧ r' = r) && decide (c < 64))) := by
  unfold plot
  by_cases hc : c < 64
  · rw [if_neg (by omega), cell_flip _ _ _ _ _ hc hr]
    by_cases h : c' = c ∧ r' = r
    · obtain ⟨rfl, rfl⟩ := h; simp [hc]
    · simp [h]
  · rw [if_pos (by omega)]; simp [hc]

/-- One 1-bit adds a collision when its cell was set. -/
theorem plot_hit (c r : Nat) (acc : FrameBuffer × Bool) :
    (plot c r acc).2 = (acc.2 || (decide (c < 64) && acc.1.cell c r)) := by
  unfold plot
  by_cases hc : c < 64
  · rw [if_neg (by omega)]; simp [hc]
  · rw [if_pos (by omega)]; simp [hc]

/-- The first `k` bits of a sprite row. -/
theorem drawBits_spec (x r : Nat) (hr : r < 32) (byte : Byte) (acc : FrameBuffer × Bool) (k : Nat) :
    let out := (List.range k).foldl
      (fun acc b => if spriteBit byte b then plot (x + b) r acc else acc) acc
    (∀ c' r', out.1.cell c' r' =
      (acc.1.cell c' r' !=
        (decide (r' = r ∧ x ≤ c' ∧ c' < x + k ∧ c' < 64) && spriteBit byte (c' - x)))) ∧
    (out.2 = true ↔ acc.2 = true ∨
      ∃ c', x ≤ c' ∧ c' < x + k ∧ c' < 64 ∧ spriteBit byte (c' - x) = true ∧ acc.1.cell c' r = true) := by
  induction k with
  | zero =>
    refine ⟨fun c' r' => ?_, ?_⟩
    · have : ¬ (r' = r ∧ x ≤ c' ∧ c' < x + 0 ∧ c' < 64) := by omega
      simp only [List.range_zero, List.foldl_nil, this, decide_false, Bool.false_and, Bool.bne_false]
    · simp only [List.range_zero, List.foldl_nil]
      exact ⟨.inl, fun h => h.elim id fun ⟨c', h1, h2, _⟩ => by omega⟩
  | succ k ih =>
    obtain ⟨ih1, ih2⟩ := ih
    simp only [List.range_succ, List.foldl_append, List.foldl_cons, List.foldl_nil]
    by_cases hb : spriteBit byte k = true
    · rw [if_pos hb]
      refine ⟨fun c' r' => ?_, ?_⟩
      · rw [plot_cell _ _ hr, ih1]
        by_cases h : c' = x + k ∧ r' = r
        · obtain ⟨rfl, rfl⟩ := h
          have h1 : ¬ (r' = r' ∧ x ≤ x + k ∧ x + k < x + k ∧ x + k < 64) := by omega
          by_cases h2 : x + k < 64 <;> simp [hb, h2]
        · have h1 : (r' = r ∧ x ≤ c' ∧ c' < x + (k + 1) ∧ c' < 64) ↔
              (r' = r ∧ x ≤ c' ∧ c' < x + k ∧ c' < 64) := by omega
          simp only [h1]
          simp [h]
      · rw [plot_hit, Bool.or_eq_true, ih2, ih1]
        have h1 : decide (r = r ∧ x ≤ x + k ∧ x + k < x + k ∧ x + k < 64) = false :=
          decide_eq_false (by omega)
        rw [h1, Bool.false_and, Bool.bne_false, Bool.and_eq_true, decide_eq_true_eq]
        constructor
        · rintro ((h | ⟨c', h2, h3, h4⟩) | ⟨h2, h3⟩)
          · exact .inl h
          · exact .inr ⟨c', h2, by omega, h4⟩
          · exact .inr ⟨x + k, by omega, by omega, h2, by simpa using hb, h3⟩
        · rintro (h | ⟨c', h2, h3, h4, h5, h6⟩)
          · exact .inl (.inl h)
          · by_cases h7 : c' = x + k
            · subst h7; exact .inr ⟨h4, h6⟩
            · exact .inl (.inr ⟨c', h2, by omega, h4, h5, h6⟩)
    · rw [if_neg hb]
      refine ⟨fun c' r' => ?_, ?_⟩
      · rw [ih1]
        by_cases h : c' = x + k
        · subst h; simp [hb]
        · have h1 : (r' = r ∧ x ≤ c' ∧ c' < x + (k + 1) ∧ c' < 64) ↔
              (r' = r ∧ x ≤ c' ∧ c' < x + k ∧ c' < 64) := by omega
          simp only [h1]
      · rw [ih2]
        refine or_congr Iff.rfl (exists_congr fun c' => ?_)
        constructor
        · rintro ⟨h2, h3, h4⟩; exact ⟨h2, by omega, h4⟩
        · rintro ⟨h2, h3, h4, h5, h6⟩
          refine ⟨h2, ?_, h4, h5, h6⟩
          by_contra h7
          have : c' - x = k := by omega
          exact hb (this ▸ h5)

/-- Whether the sprite row list `bytes`, its first row at `y`, has a visible 1-bit at a cell. -/
def rowsPixel (bytes : List Byte) (x y c r : Nat) : Bool :=
  decide (x ≤ c ∧ c < x + 8 ∧ c < 64 ∧ y ≤ r ∧ r < y + bytes.length ∧ r < 32) &&
    spriteBit (bytes.getD (r - y) 0) (c - x)

/-- The compositor flips exactly the cells under a visible 1-bit and reports exactly those that were set
(R203 to R207). -/
theorem drawRows_spec (x : Nat) (bytes : List Byte) (y : Nat) (acc : FrameBuffer × Bool) :
    (∀ c r, (drawRows x y bytes acc).1.cell c r =
      (acc.1.cell c r != rowsPixel bytes x y c r)) ∧
    ((drawRows x y bytes acc).2 = true ↔ acc.2 = true ∨
      ∃ c r, acc.1.cell c r = true ∧ rowsPixel bytes x y c r = true) := by
  induction bytes generalizing y acc with
  | nil =>
    have h0 : ∀ c r, rowsPixel [] x y c r = false := fun c r => by
      have : ¬ (x ≤ c ∧ c < x + 8 ∧ c < 64 ∧ y ≤ r ∧ r < y + ([] : List Byte).length ∧ r < 32) := by
        simp only [List.length_nil]; omega
      simp only [rowsPixel, this, decide_false, Bool.false_and]
    simp [drawRows, h0]
  | cons byte rest ih =>
    obtain ⟨ih1, ih2⟩ := ih (y + 1) (drawRow x y byte acc)
    have hrow : (∀ c' r', (drawRow x y byte acc).1.cell c' r' =
          (acc.1.cell c' r' !=
            (decide (r' = y ∧ r' < 32 ∧ x ≤ c' ∧ c' < x + 8 ∧ c' < 64) && spriteBit byte (c' - x)))) ∧
        ((drawRow x y byte acc).2 = true ↔ acc.2 = true ∨
          ∃ c', y < 32 ∧ x ≤ c' ∧ c' < x + 8 ∧ c' < 64 ∧ spriteBit byte (c' - x) = true ∧
            acc.1.cell c' y = true) := by
      unfold drawRow
      by_cases hy : y < 32
      · rw [if_neg (by omega)]
        obtain ⟨h1, h2⟩ := drawBits_spec x y hy byte acc 8
        refine ⟨fun c' r' => ?_, ?_⟩
        · rw [h1]
          have : (r' = y ∧ x ≤ c' ∧ c' < x + 8 ∧ c' < 64) ↔
              (r' = y ∧ r' < 32 ∧ x ≤ c' ∧ c' < x + 8 ∧ c' < 64) := by omega
          simp only [this]
        · rw [h2]; simp [hy]
      · rw [if_pos (by omega)]
        refine ⟨fun c' r' => ?_, ?_⟩
        · have : ¬ (r' = y ∧ r' < 32 ∧ x ≤ c' ∧ c' < x + 8 ∧ c' < 64) := by omega
          simp [this]
        · simp [hy]
    obtain ⟨hr1, hr2⟩ := hrow
    have hsplit : ∀ c r, rowsPixel (byte :: rest) x y c r =
        if r = y then (decide (r = y ∧ r < 32 ∧ x ≤ c ∧ c < x + 8 ∧ c < 64) && spriteBit byte (c - x))
        else rowsPixel rest x (y + 1) c r := by
      intro c r
      by_cases h : r = y
      · subst h
        have : (x ≤ c ∧ c < x + 8 ∧ c < 64 ∧ r ≤ r ∧ r < r + (byte :: rest).length ∧ r < 32) ↔
            (r = r ∧ r < 32 ∧ x ≤ c ∧ c < x + 8 ∧ c < 64) := by
          rw [List.length_cons]; omega
        simp only [rowsPixel, this]; simp
      · rw [if_neg h]
        have : (x ≤ c ∧ c < x + 8 ∧ c < 64 ∧ y ≤ r ∧ r < y + (byte :: rest).length ∧ r < 32) ↔
            (x ≤ c ∧ c < x + 8 ∧ c < 64 ∧ y + 1 ≤ r ∧ r < y + 1 + rest.length ∧ r < 32) := by
          simp only [List.length_cons]; omega
        simp only [rowsPixel, this]
        by_cases h2 : y + 1 ≤ r
        · obtain ⟨d, rfl⟩ := Nat.exists_eq_add_of_le h2
          have h3 : y + 1 + d - y = d + 1 := by omega
          have h4 : y + 1 + d - (y + 1) = d := by omega
          rw [h3, h4, List.getD_cons_succ]
        · have h3 : ¬ (x ≤ c ∧ c < x + 8 ∧ c < 64 ∧ y + 1 ≤ r ∧ r < y + 1 + rest.length ∧ r < 32) := by omega
          simp only [h3, decide_false, Bool.false_and]
    have hlow : ∀ c, rowsPixel rest x (y + 1) c y = false := fun c => by
      have : ¬ (x ≤ c ∧ c < x + 8 ∧ c < 64 ∧ y + 1 ≤ y ∧ y < y + 1 + rest.length ∧ y < 32) := by omega
      simp only [rowsPixel, this, decide_false, Bool.false_and]
    refine ⟨fun c r => ?_, ?_⟩
    · show (drawRows x (y + 1) rest (drawRow x y byte acc)).1.cell c r = _
      rw [ih1, hr1, hsplit]
      by_cases h : r = y
      · subst h; rw [if_pos rfl, hlow]; simp
      · rw [if_neg h]; simp [h]
    · show (drawRows x (y + 1) rest (drawRow x y byte acc)).2 = true ↔ _
      rw [ih2, hr2]
      constructor
      · rintro ((h | ⟨c', h1, h2, h3, h4, h5, h6⟩) | ⟨c, r, h1, h2⟩)
        · exact .inl h
        · exact .inr ⟨c', y, h6, by rw [hsplit, if_pos rfl]; simp [h1, h2, h3, h4, h5]⟩
        · have hne : r ≠ y := fun e => by subst e; rw [hlow] at h2; exact Bool.noConfusion h2
          rw [hr1] at h1
          exact .inr ⟨c, r, by simpa [hne] using h1, by rw [hsplit, if_neg hne]; exact h2⟩
      · rintro (h | ⟨c, r, h1, h2⟩)
        · exact .inl (.inl h)
        · rw [hsplit] at h2
          by_cases hne : r = y
          · subst hne
            rw [if_pos rfl, Bool.and_eq_true, decide_eq_true_eq] at h2
            obtain ⟨⟨-, g1, g2, g3, g4⟩, g5⟩ := h2
            exact .inl (.inr ⟨c, g1, g2, g3, g4, g5, h1⟩)
          · rw [if_neg hne] at h2
            exact .inr ⟨c, r, by rw [hr1]; simpa [hne] using h1, h2⟩

/-- The bytes that DXYN reads make the sprite of `spritePixel`. -/
theorem rowsPixel_block (m : Memory) (a n x y c r : Nat) :
    rowsPixel ((List.range n).map fun k => m.byteAt (a + k)) x y c r = spritePixel m a n x y c r := by
  unfold rowsPixel spritePixel spriteBit
  rw [List.length_map, List.length_range]
  by_cases h : x ≤ c ∧ c < x + 8 ∧ c < 64 ∧ y ≤ r ∧ r < y + n ∧ r < 32
  · have h1 : r - y < n := by omega
    simp [h, h1]
  · simp only [h, decide_false, Bool.false_and]

end Sys2Proof.Machine
end

