-- ==== Sys2Proof/Laws/Instr.lean ====
section
/-! SUPPORT. Instructions as syntax: every one is well formed, and the masks of the opcode map read as
fields of the word. -/

namespace Sys2Proof

theorem fieldFits_fin16 (x : Fin 16) : fieldFits x.val 4 = true := by
  simp [fieldFits]

theorem fieldFits_byte (b : Byte) : fieldFits b.toNat 8 = true := by
  have := b.isLt
  simpa [fieldFits] using this

theorem fieldFits_nnn (n : BitVec 12) : fieldFits n.toNat 12 = true := by
  have := n.isLt
  simpa [fieldFits] using this

/-- The types of the fields make every instruction well formed. -/
theorem wellFormed_all (i : Instr) : i.wellFormed = true := by
  cases i <;>
    simp [Instr.wellFormed, Instr.operands, fieldFits_fin16, fieldFits_byte, fieldFits_nnn]

/-- Every instruction's row is a row of the opcode map. -/
theorem row_mem (i : Instr) : i.row ∈ opcodeMap := by
  cases i <;> (simp only [Instr.row]; decide)

theorem opcodeMap_length : opcodeMap.length = 34 := rfl

/-! ## The masks of R92 read fields -/

theorem and_F000 (w : Word) : w &&& 0xF000 = BitVec.ofNat 16 (w.toNat / 4096 * 4096) := by
  have h : (w.toNat / 4096 * 4096) = (w >>> 12 <<< 12).toNat := by
    have := w.isLt
    simp [Nat.shiftRight_eq_div_pow, Nat.shiftLeft_eq]; omega
  rw [h, BitVec.ofNat_toNat, BitVec.setWidth_eq]
  ext k hk
  interval_cases k <;> simp

theorem and_F00F (w : Word) :
    w &&& 0xF00F = BitVec.ofNat 16 (w.toNat / 4096 * 4096 + w.toNat % 16) := by
  have h : (w.toNat / 4096 * 4096 + w.toNat % 16) = (w >>> 12 <<< 12).toNat + (w &&& 0xF#16).toNat := by
    have := w.isLt
    rw [BitVec.toNat_and, show (0xF#16).toNat = 2 ^ 4 - 1 from rfl, Nat.and_two_pow_sub_one_eq_mod]
    simp [Nat.shiftRight_eq_div_pow, Nat.shiftLeft_eq]; omega
  rw [h, BitVec.ofNat_add, BitVec.ofNat_toNat, BitVec.ofNat_toNat, BitVec.setWidth_eq, BitVec.setWidth_eq,
    BitVec.add_eq_or_of_and_eq_zero]
  · ext k hk
    interval_cases k <;> simp
  · ext k hk
    interval_cases k <;> simp

theorem and_F0FF (w : Word) :
    w &&& 0xF0FF = BitVec.ofNat 16 (w.toNat / 4096 * 4096 + w.toNat % 256) := by
  have h : (w.toNat / 4096 * 4096 + w.toNat % 256) = (w >>> 12 <<< 12).toNat + (w &&& 0xFF#16).toNat := by
    have := w.isLt
    rw [BitVec.toNat_and, show (0xFF#16).toNat = 2 ^ 8 - 1 from rfl, Nat.and_two_pow_sub_one_eq_mod]
    simp [Nat.shiftRight_eq_div_pow, Nat.shiftLeft_eq]; omega
  rw [h, BitVec.ofNat_add, BitVec.ofNat_toNat, BitVec.ofNat_toNat, BitVec.setWidth_eq, BitVec.setWidth_eq,
    BitVec.add_eq_or_of_and_eq_zero]
  · ext k hk
    interval_cases k <;> simp
  · ext k hk
    interval_cases k <;> simp

end Sys2Proof
end

