-- ==== Sys2Proof/Laws/PerInstr.lean ====
section
/-! SUPPORT. The family EncodesRow, one lemma per constructor: an instruction's word is covered by its row
of the opcode map (R92). -/

namespace Sys2Proof.Laws.EncodesRow

/-- The word of an instruction matches the mask and the pattern of its row. -/
def Statement (i : Instr) : Prop := i.row.covers (encode i) = true

theorem covers_nnn (op : Nat) (nnn : BitVec 12) (pat : Word) (h : op < 16)
    (hp : pat = BitVec.ofNat 16 (op * 4096)) :
    Row.covers ⟨0xF000, pat⟩ (encodeNnn op nnn) = true := by
  have := nnn.isLt
  subst hp
  have hd : (op * 4096 + nnn.toNat) % 65536 / 4096 = op := by omega
  simp only [Row.covers, beq_iff_eq, and_F000, encodeNnn, BitVec.toNat_ofNat]
  rw [show 2 ^ 16 = 65536 from rfl, hd]

theorem covers_xnn (op : Nat) (x : RegIdx) (nn : Byte) (pat : Word) (h : op < 16)
    (hp : pat = BitVec.ofNat 16 (op * 4096)) :
    Row.covers ⟨0xF000, pat⟩ (encodeXnn op x nn) = true := by
  have := nn.isLt
  have := x.isLt
  subst hp
  have hd : (op * 4096 + x.val * 256 + nn.toNat) % 65536 / 4096 = op := by omega
  simp only [Row.covers, beq_iff_eq, and_F000, encodeXnn, BitVec.toNat_ofNat]
  rw [show 2 ^ 16 = 65536 from rfl, hd]

theorem covers_xyn (op : Nat) (x y : RegIdx) (n : Fin 16) (pat : Word) (h : op < 16)
    (hp : pat = BitVec.ofNat 16 (op * 4096)) :
    Row.covers ⟨0xF000, pat⟩ (encodeXyn op x y n) = true := by
  have := n.isLt
  have := x.isLt
  have := y.isLt
  subst hp
  have hd : (op * 4096 + x.val * 256 + y.val * 16 + n.val) % 65536 / 4096 = op := by omega
  simp only [Row.covers, beq_iff_eq, and_F000, encodeXyn, BitVec.toNat_ofNat]
  rw [show 2 ^ 16 = 65536 from rfl, hd]

theorem covers_xy (op : Nat) (x y : RegIdx) (n : Fin 16) (pat : Word) (h : op < 16)
    (hp : pat = BitVec.ofNat 16 (op * 4096 + n.val)) :
    Row.covers ⟨0xF00F, pat⟩ (encodeXyn op x y n) = true := by
  have := n.isLt
  have := x.isLt
  have := y.isLt
  subst hp
  have hd : (op * 4096 + x.val * 256 + y.val * 16 + n.val) % 65536 / 4096 = op := by omega
  have hm : (op * 4096 + x.val * 256 + y.val * 16 + n.val) % 65536 % 16 = n.val := by omega
  simp only [Row.covers, beq_iff_eq, and_F00F, encodeXyn, BitVec.toNat_ofNat]
  rw [show 2 ^ 16 = 65536 from rfl, hd, hm]

theorem covers_x (op : Nat) (x : RegIdx) (sel : Byte) (pat : Word) (h : op < 16)
    (hp : pat = BitVec.ofNat 16 (op * 4096 + sel.toNat)) :
    Row.covers ⟨0xF0FF, pat⟩ (encodeXnn op x sel) = true := by
  have := sel.isLt
  have := x.isLt
  subst hp
  have hd : (op * 4096 + x.val * 256 + sel.toNat) % 65536 / 4096 = op := by omega
  have hm : (op * 4096 + x.val * 256 + sel.toNat) % 65536 % 256 = sel.toNat := by omega
  simp only [Row.covers, beq_iff_eq, and_F0FF, encodeXnn, BitVec.toNat_ofNat]
  rw [show 2 ^ 16 = 65536 from rfl, hd, hm]

theorem cls : Statement .cls :=
  rfl

theorem ret : Statement .ret :=
  rfl

theorem jp (nnn : BitVec 12) : Statement (.jp nnn) :=
  covers_nnn _ nnn _ (by decide) rfl

theorem call (nnn : BitVec 12) : Statement (.call nnn) :=
  covers_nnn _ nnn _ (by decide) rfl

theorem seImm (x : RegIdx) (nn : Byte) : Statement (.seImm x nn) :=
  covers_xnn _ x nn _ (by decide) rfl

theorem sneImm (x : RegIdx) (nn : Byte) : Statement (.sneImm x nn) :=
  covers_xnn _ x nn _ (by decide) rfl

theorem seReg (x y : RegIdx) : Statement (.seReg x y) :=
  covers_xy _ x y _ _ (by decide) rfl

theorem ldImm (x : RegIdx) (nn : Byte) : Statement (.ldImm x nn) :=
  covers_xnn _ x nn _ (by decide) rfl

theorem addImm (x : RegIdx) (nn : Byte) : Statement (.addImm x nn) :=
  covers_xnn _ x nn _ (by decide) rfl

theorem ldReg (x y : RegIdx) : Statement (.ldReg x y) :=
  covers_xy _ x y _ _ (by decide) rfl

theorem orReg (x y : RegIdx) : Statement (.orReg x y) :=
  covers_xy _ x y _ _ (by decide) rfl

theorem andReg (x y : RegIdx) : Statement (.andReg x y) :=
  covers_xy _ x y _ _ (by decide) rfl

theorem xorReg (x y : RegIdx) : Statement (.xorReg x y) :=
  covers_xy _ x y _ _ (by decide) rfl

theorem addReg (x y : RegIdx) : Statement (.addReg x y) :=
  covers_xy _ x y _ _ (by decide) rfl

theorem sub (x y : RegIdx) : Statement (.sub x y) :=
  covers_xy _ x y _ _ (by decide) rfl

theorem shr (x y : RegIdx) : Statement (.shr x y) :=
  covers_xy _ x y _ _ (by decide) rfl

theorem subn (x y : RegIdx) : Statement (.subn x y) :=
  covers_xy _ x y _ _ (by decide) rfl

theorem shl (x y : RegIdx) : Statement (.shl x y) :=
  covers_xy _ x y _ _ (by decide) rfl

theorem sneReg (x y : RegIdx) : Statement (.sneReg x y) :=
  covers_xy _ x y _ _ (by decide) rfl

theorem ldI (nnn : BitVec 12) : Statement (.ldI nnn) :=
  covers_nnn _ nnn _ (by decide) rfl

theorem jpV0 (nnn : BitVec 12) : Statement (.jpV0 nnn) :=
  covers_nnn _ nnn _ (by decide) rfl

theorem rnd (x : RegIdx) (nn : Byte) : Statement (.rnd x nn) :=
  covers_xnn _ x nn _ (by decide) rfl

theorem drw (x y : RegIdx) (n : Fin 16) : Statement (.drw x y n) :=
  covers_xyn _ x y n _ (by decide) rfl

theorem skp (x : RegIdx) : Statement (.skp x) :=
  covers_x _ x _ _ (by decide) rfl

theorem sknp (x : RegIdx) : Statement (.sknp x) :=
  covers_x _ x _ _ (by decide) rfl

theorem ldVxDt (x : RegIdx) : Statement (.ldVxDt x) :=
  covers_x _ x _ _ (by decide) rfl

theorem ldVxK (x : RegIdx) : Statement (.ldVxK x) :=
  covers_x _ x _ _ (by decide) rfl

theorem ldDtVx (x : RegIdx) : Statement (.ldDtVx x) :=
  covers_x _ x _ _ (by decide) rfl

theorem ldStVx (x : RegIdx) : Statement (.ldStVx x) :=
  covers_x _ x _ _ (by decide) rfl

theorem addI (x : RegIdx) : Statement (.addI x) :=
  covers_x _ x _ _ (by decide) rfl

theorem ldF (x : RegIdx) : Statement (.ldF x) :=
  covers_x _ x _ _ (by decide) rfl

theorem ldB (x : RegIdx) : Statement (.ldB x) :=
  covers_x _ x _ _ (by decide) rfl

theorem ldMemVx (x : RegIdx) : Statement (.ldMemVx x) :=
  covers_x _ x _ _ (by decide) rfl

theorem ldVxMem (x : RegIdx) : Statement (.ldVxMem x) :=
  covers_x _ x _ _ (by decide) rfl

end Sys2Proof.Laws.EncodesRow
end

