-- ==== Sys2Proof/Laws/Step.lean ====
section
/-! SUPPORT. The step, said once: what the timer phase can do, what fetch answers, which transaction a step
performs, and how exec can end. -/

namespace Sys2Proof.Machine

/-! ## The timer phase -/

/-- The timer phase ticks DT or does nothing (R240). -/
theorem timerPhase_cases (now ticks : Nat) (s : State) :
    (s.dt ≠ 0 ∧ now - s.tickRef > ticks ∧
      timerPhase now ticks s = { s with dt := s.dt - 1, tickRef := now }) ∨
    (¬ (s.dt ≠ 0 ∧ now - s.tickRef > ticks) ∧ timerPhase now ticks s = s) := by
  unfold timerPhase
  split
  · exact .inl ⟨‹_ ∧ _›.1, ‹_ ∧ _›.2, rfl⟩
  · exact .inr ⟨‹_›, rfl⟩

/-- Only DT and TICK_REF are the timer phase's to change. -/
theorem timerPhase_only (now ticks : Nat) (s : State) :
    timerPhase now ticks s =
      { s with dt := (timerPhase now ticks s).dt, tickRef := (timerPhase now ticks s).tickRef } := by
  unfold timerPhase
  split <;> rfl

@[simp] theorem timerPhase_mem (now ticks : Nat) (s : State) : (timerPhase now ticks s).mem = s.mem := by
  unfold timerPhase; split <;> rfl
@[simp] theorem timerPhase_pc (now ticks : Nat) (s : State) : (timerPhase now ticks s).pc = s.pc := by
  unfold timerPhase; split <;> rfl
@[simp] theorem timerPhase_sp (now ticks : Nat) (s : State) : (timerPhase now ticks s).sp = s.sp := by
  unfold timerPhase; split <;> rfl
@[simp] theorem timerPhase_errors (now ticks : Nat) (s : State) :
    (timerPhase now ticks s).errors = s.errors := by
  unfold timerPhase; split <;> rfl
@[simp] theorem timerPhase_reply (now ticks : Nat) (s : State) :
    (timerPhase now ticks s).reply = s.reply := by
  unfold timerPhase; split <;> rfl
@[simp] theorem timerPhase_pending (now ticks : Nat) (s : State) :
    (timerPhase now ticks s).pending = s.pending := by
  unfold timerPhase; split <;> rfl
@[simp] theorem timerPhase_hostCalls (now ticks : Nat) (s : State) :
    (timerPhase now ticks s).hostCalls = s.hostCalls := by
  unfold timerPhase; split <;> rfl
@[simp] theorem timerPhase_hostNow (now ticks : Nat) (s : State) :
    (timerPhase now ticks s).hostNow = s.hostNow := by
  unfold timerPhase; split <;> rfl
@[simp] theorem timerPhase_runState (now ticks : Nat) (s : State) :
    (timerPhase now ticks s).runState = s.runState := by
  unfold timerPhase; split <;> rfl

/-- What DT the timer phase leaves rests on DT and TICK_REF alone. -/
theorem timerPhase_dt_congr (now ticks : Nat) {s t : State} (hd : t.dt = s.dt) (hr : t.tickRef = s.tickRef) :
    (timerPhase now ticks t).dt = (timerPhase now ticks s).dt := by
  unfold timerPhase
  rw [hd, hr]
  split
  · rfl
  · exact hd

/-! ## Fetch -/

/-- A fetch in range gives the big-endian word at PC (R63, R114). -/
theorem fetchWord_in (s : State) (h : s.pc.toNat + 2 ≤ 4096) : fetchWord s = some s.wordAtPc := by
  unfold fetchWord
  rw [params_oorPolicy, memReadBlock_fault _ _ _ (.inr h)]
  simp [List.range_succ]

/-- A fetch out of range gives no word. -/
theorem fetchWord_out (s : State) (h : 4096 < s.pc.toNat + 2) : fetchWord s = none := by
  unfold fetchWord
  have h0 : memReadBlock .fault s.mem s.pc.toNat 2 = none := by
    simp only [memReadBlock, memRead, effectiveAddress]
    by_cases h1 : s.pc.toNat < 4096
    · have h2 : ¬ s.pc.toNat + 1 < 4096 := by omega
      simp [h1, h2]
    · simp [h1]
  rw [params_oorPolicy, h0]

/-- Phases 2 to 5 (R111, R114 to R117). -/
theorem fetchAndExecute_eq (s : State) :
    fetchAndExecute s =
      if s.pc.toNat + 2 > 4096 then raise (.addressOutOfRange s.pc) s
      else decodeAndExecute s.wordAtPc s.advance := by
  unfold fetchAndExecute
  by_cases h : s.pc.toNat + 2 ≤ 4096
  · rw [params_oorPolicy, if_pos ((rangeOk_fault _ _).2 (.inr h)), fetchWord_in s h, if_neg (by omega)]
  · rw [params_oorPolicy, if_neg (by rw [rangeOk_fault]; omega), if_pos (by omega)]

/-! ## Which transaction a step performs -/

theorem step_pending (s : State) (c : HostCall) (rest : List HostCall) (h : s.pending = c :: rest) :
    step s = perform c { s with pending := rest, reply := .ok, hostCalls := s.hostCalls + 1 } := by
  unfold step nextTransaction
  rw [h]
  rfl

theorem step_free (s : State) (h : s.pending = []) :
    step s = stepPhases (freeNow s) (Config.ticks s.hostCalls) s.begin := by
  unfold step nextTransaction
  rw [h]

theorem step_due (s : State) (now ticks : Nat) (rest : List HostCall) (h : s.StepDue now ticks rest) :
    step s = stepPhases now ticks { s with pending := rest, reply := .ok, hostCalls := s.hostCalls + 1 } := by
  obtain ⟨hp, h1, h2⟩ := h
  rw [step_pending s _ _ hp]
  show stepCall now ticks _ = _
  unfold stepCall
  exact if_neg (by show ¬ (now < s.hostNow ∨ now < s.tickRef); omega)

/-- The Step at a free time is one the host could have called: its `now` keeps the duty of R312 b. -/
theorem step_free_is_dutiful (s : State) :
    stepCall (freeNow s) (Config.ticks s.hostCalls) s.begin =
      stepPhases (freeNow s) (Config.ticks s.hostCalls) s.begin := by
  unfold stepCall
  refine if_neg ?_
  show ¬ (freeNow s < s.hostNow ∨ freeNow s < s.tickRef)
  unfold freeNow
  omega

theorem stepPhases_running (s : State) (now ticks : Nat) (h : s.runState = .running) :
    stepPhases now ticks s = fetchAndExecute (timerPhase now ticks { s with hostNow := now }) := by
  unfold stepPhases
  rw [h]

theorem stepPhases_waiting (s : State) (now ticks : Nat) (h : s.runState = .waitingForKey) :
    stepPhases now ticks s = raise .invalidState { s with hostNow := now } := by
  unfold stepPhases
  rw [h]

/-! ## How exec ends -/

/-- A block read ends as what is done with its bytes ends, or in the error. -/
theorem withBlock_next (n : Nat) (s : State) (f : List Byte → State) :
    ∃ t, withBlock n s (fun b => .next (f b)) = .next t := by
  by_cases h : n = 0 ∨ s.i.toNat + n ≤ 4096
  · exact ⟨_, withBlock_in n s _ h⟩
  · exact ⟨_, withBlock_out n s _ h⟩

/-- Every meaning answers a next state, but RET and CALL at an SP above 16. -/
theorem exec_outcome (i : Instr) (s : State) :
    (∃ t, exec i s = .next t) ∨ (16 < s.sp ∧ exec i s = .fault (.stackPointerOutOfRange s.sp)) := by
  cases i
  case ret =>
    simp only [exec, execRet]
    split
    · exact .inl ⟨_, rfl⟩
    · split
      · exact .inl ⟨_, rfl⟩
      · exact .inr ⟨by omega, rfl⟩
  case call nnn =>
    simp only [exec, execCall]
    split
    · exact .inl ⟨_, rfl⟩
    · split
      · exact .inl ⟨_, rfl⟩
      · rename_i h1 h2
        have h1 : s.sp ≠ 16 := h1
        exact .inr ⟨by omega, rfl⟩
  case ldB x =>
    rcases storeBlock_cases (decimalDigits (s.reg x)) s with ⟨h, -⟩ | h <;> exact .inl ⟨_, h⟩
  case ldMemVx x =>
    rcases storeBlock_cases (s.regsTo x) s with ⟨h, -⟩ | h <;> exact .inl ⟨_, h⟩
  case ldVxMem x => exact .inl (withBlock_next _ s _)
  case drw x y n => exact .inl (withBlock_next _ s _)
  case skp x =>
    simp only [exec, execSkp, params_keyOorPolicy, keyPressed_default]
    exact .inl ⟨_, rfl⟩
  case sknp x =>
    simp only [exec, execSknp, params_keyOorPolicy, keyPressed_default]
    exact .inl ⟨_, rfl⟩
  all_goals exact .inl ⟨_, rfl⟩

end Sys2Proof.Machine
end

