-- ==== Sys2Proof/Tests/Slice0.lean ====
section
/-! SUPPORT. The model's own tests: ill-formed terms that are refused, words written out from the spec's
encodings, single steps from spec/95_test_vectors.md (the vector's name stands in each comment), and for
every obligation with hypotheses a state and operands that meet them. -/

namespace Sys2Proof.Tests

open Sys2Proof Sys2Proof.Machine

/-! ## Helpers -/

/-- The reset state with some V registers set. -/
def regs (l : List (RegIdx × Byte)) : State := l.foldl (fun s p => s.setReg p.1 p.2) State.reset

/-- `s` with bytes in Memory from `a` on. -/
def bytesAt (a : Nat) (bs : List Byte) (s : State) : State := { s with mem := s.mem.setBytes a bs }

/-- One step: the host's Step at the current time on the word `w`, placed where it is fetched. -/
def run (w : Nat) (s : State) : Result :=
  step { s.withFetchWord 16 w with pending := [.step s.hostNow 100] }

/-- One step that performs the host call `c`. -/
def call (c : HostCall) (s : State) : Result := step { s with pending := [c] }

/-- What a next state shows; none for a fault or a refusal. -/
def see {α : Type} (r : Result) (f : State → α) : Option α :=
  match r with
  | .next t => some (f t)
  | _ => none

/-- Only the given cells are set. -/
def fbOf (cells : List (Nat × Nat)) : FrameBuffer := cells.foldl (fun fb p => fb.flip p.1 p.2) FrameBuffer.empty

/-! ## Well-formedness: each check refuses an ill-formed term (R91, R96) -/

theorem test_field_x_too_wide : fieldFits 16 4 = false := by decide
theorem test_field_nn_too_wide : fieldFits 256 8 = false := by decide
theorem test_field_nnn_too_wide : fieldFits 4096 12 = false := by decide
theorem test_group0_illegal : legalWord 0x00E1 = false ∧ legalWord 0x0000 = false := by decide
theorem test_group5_illegal : legalWord 0x5011 = false := by decide
theorem test_group8_illegal : legalWord 0x8018 = false ∧ legalWord 0x801F = false := by decide
theorem test_group9_illegal : legalWord 0x9251 = false := by decide
theorem test_groupE_illegal : legalWord 0xE19F = false := by decide
theorem test_groupF_illegal : legalWord 0xF134 = false ∧ legalWord 0xFFFF = false := by decide
theorem test_decode_truncated : decode [0x12] = .error .truncated := by rfl
theorem test_decode_rejects_by_name : decode [0xFF, 0xFF, 0x01] = .error (.unsupportedOpcode 0xFFFF) := by
  rfl

/-! ## Decoding: words written out from R91 and R92, field by field -/

theorem test_decode_cls : decodeWord 0b0000_0000_1110_0000 = some .cls := by decide
theorem test_decode_ret : decodeWord 0b0000_0000_1110_1110 = some .ret := by decide
theorem test_decode_jp : decodeWord 0b0001_0010_0011_0100 = some (.jp 0x234) := by decide
theorem test_decode_call : decodeWord 0b0010_0010_0001_0000 = some (.call 0x210) := by decide
theorem test_decode_seImm : decodeWord 0b0011_0011_0001_0000 = some (.seImm 3 0x10) := by decide
theorem test_decode_sneImm : decodeWord 0b0100_0100_1111_1111 = some (.sneImm 4 0xFF) := by decide
theorem test_decode_seReg : decodeWord 0b0101_0000_0001_0000 = some (.seReg 0 1) := by decide
theorem test_decode_ldImm : decodeWord 0b0110_1010_0011_1100 = some (.ldImm 0xA 0x3C) := by decide
theorem test_decode_addImm : decodeWord 0b0111_0000_0000_0011 = some (.addImm 0 3) := by decide
theorem test_decode_ldReg : decodeWord 0b1000_0000_0001_0000 = some (.ldReg 0 1) := by decide
theorem test_decode_orReg : decodeWord 0b1000_0000_0001_0001 = some (.orReg 0 1) := by decide
theorem test_decode_andReg : decodeWord 0b1000_0000_0001_0010 = some (.andReg 0 1) := by decide
theorem test_decode_xorReg : decodeWord 0b1000_0000_0001_0011 = some (.xorReg 0 1) := by decide
theorem test_decode_addReg : decodeWord 0b1000_1010_1011_0100 = some (.addReg 0xA 0xB) := by decide
theorem test_decode_sub : decodeWord 0b1000_0000_0001_0101 = some (.sub 0 1) := by decide
theorem test_decode_shr : decodeWord 0b1000_0010_1111_0110 = some (.shr 2 0xF) := by decide
theorem test_decode_subn : decodeWord 0b1000_0000_0001_0111 = some (.subn 0 1) := by decide
theorem test_decode_shl : decodeWord 0b1000_0011_0000_1110 = some (.shl 3 0) := by decide
theorem test_decode_sneReg : decodeWord 0b1001_0010_0101_0000 = some (.sneReg 2 5) := by decide
theorem test_decode_ldI : decodeWord 0b1010_0011_0000_0000 = some (.ldI 0x300) := by decide
theorem test_decode_jpV0 : decodeWord 0b1011_0010_0000_0110 = some (.jpV0 0x206) := by decide
theorem test_decode_rnd : decodeWord 0b1100_0011_0000_1111 = some (.rnd 3 0x0F) := by decide
theorem test_decode_drw : decodeWord 0b1101_0000_0001_0101 = some (.drw 0 1 5) := by decide
theorem test_decode_skp : decodeWord 0b1110_0001_1001_1110 = some (.skp 1) := by decide
theorem test_decode_sknp : decodeWord 0b1110_0001_1010_0001 = some (.sknp 1) := by decide
theorem test_decode_ldVxDt : decodeWord 0b1111_0011_0000_0111 = some (.ldVxDt 3) := by decide
theorem test_decode_ldVxK : decodeWord 0b1111_0001_0000_1010 = some (.ldVxK 1) := by decide
theorem test_decode_ldDtVx : decodeWord 0b1111_0001_0001_0101 = some (.ldDtVx 1) := by decide
theorem test_decode_ldStVx : decodeWord 0b1111_0010_0001_1000 = some (.ldStVx 2) := by decide
theorem test_decode_addI : decodeWord 0b1111_0000_0001_1110 = some (.addI 0) := by decide
theorem test_decode_ldF : decodeWord 0b1111_1010_0010_1001 = some (.ldF 0xA) := by decide
theorem test_decode_ldB : decodeWord 0b1111_0101_0011_0011 = some (.ldB 5) := by decide
theorem test_decode_ldMemVx : decodeWord 0b1111_0010_0101_0101 = some (.ldMemVx 2) := by decide
theorem test_decode_ldVxMem : decodeWord 0b1111_0010_0110_0101 = some (.ldVxMem 2) := by decide

/-! ## Notation (R98, R99; programs P3 and P6) -/

theorem test_line_drw : (Instr.drw 0 0 1).line = "DRW V0, V0, 0x1" := by decide
theorem test_line_shr : (Instr.shr 2 0).line = "SHR V2" ∧ (Instr.ldMemVx 5).line = "LD [I], V5" := by decide
-- P3
theorem test_assemble :
    assemble [.instr (.ldI 0x20A), .instr (.ldImm 0 0), .instr (.drw 0 0 1), .instr (.jp 0x208), .db 0xF0,
      .db 0] = [0xA2, 0x0A, 0x60, 0x00, 0xD0, 0x01, 0x12, 0x08, 0xF0, 0x00] := by decide

/-! ## Control transfer (vectors of "Control transfer", and the examples of R130 to R137) -/

-- R130: SP = 1, S[0] = 0x0206
theorem test_ret :
    see (run 0x00EE { State.reset with sp := 1, stack := State.reset.stack.set 0 0x206, pc := 0x212 })
      (fun t => (t.pc, t.sp)) = some (0x206, 0) := by decide
-- R130: StackUnderflow carries the word; PC is the advanced one
theorem test_ret_underflow :
    see (run 0x00EE State.reset) (fun t => (t.pc, t.sp, t.reply)) =
      some (0x202, 0, .error (.stackUnderflow 0x00EE)) := by decide
-- R131
theorem test_jp : see (run 0x1234 State.reset) (·.pc) = some 0x234 := by decide
-- R132: S[0] = 0x206, SP = 1, PC = 0x210
theorem test_call :
    see (run 0x2210 { State.reset with pc := 0x204 }) (fun t => (t.stack[0], t.sp, t.pc)) =
      some (0x206, 1, 0x210) := by decide
-- P8, step 17
theorem test_call_overflow :
    see (run 0x2200 { State.reset with sp := 16 }) (fun t => (t.sp, t.pc, t.reply)) =
      some (16, 0x202, .error (.stackOverflow 0x2200)) := by decide
-- R133
theorem test_seImm_skips : see (run 0x3310 (regs [(3, 0x10)])) (·.pc) = some 0x204 := by decide
theorem test_seImm_stays : see (run 0x3310 (regs [(3, 0x11)])) (·.pc) = some 0x202 := by decide
-- R134
theorem test_sneImm_skips : see (run 0x44FF (regs [(4, 0)])) (·.pc) = some 0x204 := by decide
-- R135
theorem test_seReg_skips :
    see (run 0x5010 { regs [(0, 5), (1, 5)] with pc := 0x206 }) (·.pc) = some 0x20A := by decide
-- R136
theorem test_sneReg_skips :
    see (run 0x9250 { regs [(2, 1), (5, 2)] with pc := 0x300 }) (·.pc) = some 0x304 := by decide
theorem test_sneReg_same : see (run 0x9220 (regs [(2, 1)])) (·.pc) = some 0x202 := by decide
-- R137: the sum is not reduced modulo 4096
theorem test_jpV0 : see (run 0xB300 (regs [(0, 0x10)])) (·.pc) = some 0x310 := by decide
theorem test_jpV0_top : see (run 0xBFFF (regs [(0, 0xFF)])) (·.pc) = some 0x10FE := by decide

/-! ## Arithmetic and logic (the examples of R152 to R163 and vectors "Arithmetic") -/

-- R152, L1.2
theorem test_ldImm : see (run 0x6A3C State.reset) (fun t => (t.reg 0xA, t.pc)) = some (0x3C, 0x202) := by
  decide
-- R153: no flag on overflow
theorem test_addImm_wraps :
    see (run 0x7001 (regs [(0, 0xFF), (15, 7)])) (fun t => (t.reg 0, t.reg 15)) = some (0, 7) := by decide
-- R154
theorem test_ldReg : see (run 0x8010 (regs [(1, 0x42)])) (·.reg 0) = some 0x42 := by decide
-- R155
theorem test_orReg : see (run 0x8011 (regs [(0, 0x0F), (1, 0xF0)])) (·.reg 0) = some 0xFF := by decide
-- R156
theorem test_andReg : see (run 0x8012 (regs [(0, 0x3C), (1, 0x0F)])) (·.reg 0) = some 0x0C := by decide
-- R157
theorem test_xorReg : see (run 0x8013 (regs [(0, 0xFF), (1, 0x0F)])) (·.reg 0) = some 0xF0 := by decide
-- R158, L1.1: 0x80 + 0x80
theorem test_addReg_carries :
    see (run 0x8014 (regs [(0, 0x80), (1, 0x80)])) (fun t => (t.reg 0, t.reg 15)) = some (0, 1) := by decide
-- R158: with X = F the carry stays, not the sum
theorem test_addReg_into_vf : see (run 0x8F14 (regs [(15, 0xFF), (1, 2)])) (·.reg 15) = some 1 := by decide
-- R159: VF = 5, V[Y] = 3, X = F
theorem test_sub_into_vf : see (run 0x8F15 (regs [(15, 5), (1, 3)])) (·.reg 15) = some 0xFE := by decide
-- R159: equal operands
theorem test_sub_equal :
    see (run 0x8015 (regs [(0, 7), (1, 7), (15, 9)])) (fun t => (t.reg 0, t.reg 15)) = some (0, 0) := by decide
-- R160
theorem test_shr :
    see (run 0x8206 (regs [(2, 5)])) (fun t => (t.reg 2, t.reg 15)) = some (2, 1) := by decide
theorem test_shr_vf : see (run 0x8F06 (regs [(15, 0xFF)])) (·.reg 15) = some 0 := by decide
-- R161
theorem test_subn :
    see (run 0x8017 (regs [(0, 3), (1, 5)])) (fun t => (t.reg 0, t.reg 15)) = some (2, 1) := by decide
-- R161: Y = F, V[X] = 2, VF = 9
theorem test_subn_from_vf :
    see (run 0x80F7 (regs [(0, 2), (15, 9)])) (fun t => (t.reg 0, t.reg 15)) = some (0xFF, 1) := by decide
-- R162
theorem test_shl :
    see (run 0x830E (regs [(3, 0x81)])) (fun t => (t.reg 3, t.reg 15)) = some (2, 1) := by decide
theorem test_shl_vf : see (run 0x8F0E (regs [(15, 0x80)])) (·.reg 15) = some 2 := by decide
-- R163: one draw; NN = 0 always gives 0
theorem test_rnd_draws : see (run 0xC3FF State.reset) (·.draws) = some 1 := by decide
theorem test_rnd_masked : see (exec (.rnd 3 0) State.reset) (·.reg 3) = some 0 := by
  show some (Config.rand8 0 &&& 0#8) = some 0
  rw [BitVec.and_zero]; rfl

/-! ## Index and memory (vectors M1 to M22) -/

-- R180
theorem test_ldI : see (run 0xA300 State.reset) (·.i) = some 0x300 := by decide
-- R181: modulo 65536, VF stays
theorem test_addI_wraps :
    see (run 0xF01E { regs [(0, 1), (15, 7)] with i := 0xFFFF }) (fun t => (t.i, t.reg 15)) =
      some (0, 7) := by decide
-- M6 and M9
theorem test_ldF : see (run 0xFA29 (regs [(0xA, 7)])) (·.i) = some 0x23 := by decide
theorem test_ldF_unmasked : see (run 0xF029 (regs [(0, 0xFF)])) (·.i) = some 0x4FB := by decide
-- M10
theorem test_ldB :
    see (run 0xF533 { regs [(5, 0xEA)] with i := 0x300 })
      (fun t => (t.mem.byteAt 0x300, t.mem.byteAt 0x301, t.mem.byteAt 0x302)) = some (2, 3, 4) := by decide
-- M14
theorem test_ldB_range :
    see (run 0xF033 { regs [(0, 7)] with i := 0xFFE }) (fun t => (t.mem.byteAt 0xFFE, t.pc, t.reply)) =
      some (0, 0x202, .error (.addressOutOfRange 0xFFE)) := by decide
-- M15
theorem test_ldMemVx :
    see (run 0xF255 { regs [(0, 1), (1, 2), (2, 3), (3, 9)] with i := 0x400 })
      (fun t => ((List.range 4).map fun k => t.mem.byteAt (0x400 + k), t.i)) = some ([1, 2, 3, 0], 0x400) := by
  decide
-- M18
theorem test_ldMemVx_range :
    see (run 0xFF55 { State.reset with i := 0xFF1 }) (·.reply) =
      some (.error (.addressOutOfRange 0xFF1)) := by decide
-- M19
theorem test_ldVxMem :
    see (run 0xF265 (bytesAt 0x300 [2, 3, 4] { regs [(3, 0x77)] with i := 0x300 }))
      (fun t => (t.reg 0, t.reg 1, t.reg 2, t.reg 3, t.i)) = some (2, 3, 4, 0x77, 0x300) := by decide
-- M22 (FONT): I = 0 reads the glyph of 0
theorem test_ldVxMem_font :
    see (run 0xF465 State.reset) (fun t => (t.reg 0, t.reg 1, t.reg 4)) = some (0xF0, 0x90, 0xF0) := by decide

/-! ## Display (vectors DR1 to DR18) -/

-- DR17
theorem test_cls :
    see (run 0x00E0 { State.reset with fb := Vector.replicate 32 (Vector.replicate 64 true) }) (·.fb) =
      some FrameBuffer.empty := by decide
-- DR3
theorem test_drw_collides :
    see (run 0xD011 (bytesAt 0x300 [0xF0] { State.reset with i := 0x300, fb := fbOf [(2, 0)] }))
      (fun t => (t.fb, t.reg 15)) = some (fbOf [(0, 0), (1, 0), (3, 0)], 1) := by decide
-- DR5
theorem test_drw_clips_right :
    see (run 0xD011 (bytesAt 0x300 [0xFF] { regs [(0, 60)] with i := 0x300 })) (fun t => (t.fb, t.reg 15)) =
      some (fbOf [(60, 0), (61, 0), (62, 0), (63, 0)], 0) := by decide

/-! ## Timers, keys and ports (vectors T1 to T8, K1 to K20) -/

-- K1
theorem test_ldVxDt : see (run 0xF307 { State.reset with dt := 0x20 }) (·.reg 3) = some 0x20 := by decide
-- R113: FX07 reads the DT that ticked in the same Step
theorem test_ldVxDt_after_tick :
    see (step { State.reset.withFetchWord 16 0xF307 with dt := 3, pending := [.step 180 100] })
      (fun t => (t.reg 3, t.dt, t.tickRef)) = some (2, 2, 180) := by decide
-- R240: an interval equal to the threshold does not tick
theorem test_tick_is_strict :
    see (step { State.reset.withFetchWord 16 0xF307 with dt := 3, pending := [.step 100 100] })
      (fun t => (t.dt, t.tickRef)) = some (3, 0) := by decide
-- K2
theorem test_ldDtVx :
    see (run 0xF115 { regs [(1, 0x3C)] with tickRef := 7, hostNow := 9 }) (fun t => (t.dt, t.tickRef)) =
      some (0x3C, 7) := by decide
-- K3
theorem test_ldStVx : see (run 0xF218 (regs [(2, 0x0A)])) (·.st) = some 0x0A := by decide
-- K4 and K6
theorem test_skp :
    see (run 0xE19E { regs [(1, 0x0B)] with keys := 0x800, pc := 0x206 }) (·.pc) = some 0x20A := by decide
theorem test_skp_above_15 :
    see (run 0xE19E { regs [(1, 0x1B)] with keys := 0xFFFF }) (·.pc) = some 0x202 := by decide
-- K8 and K9
theorem test_sknp : see (run 0xE1A1 { regs [(1, 5)] with keys := 0x20 }) (·.pc) = some 0x202 := by decide
theorem test_sknp_above_15 :
    see (run 0xE1A1 { regs [(1, 0x10)] with keys := 0xFFFF }) (·.pc) = some 0x204 := by decide
-- K10
theorem test_ldVxK :
    see (run 0xF10A { State.reset with pc := 0x204 }) (fun t => (t.runState, t.waitX, t.pc)) =
      some (.waitingForKey, 1, 0x204) := by decide
-- K12
theorem test_keyDown_injects :
    see (call (.keyDown 0xB) { State.reset with runState := .waitingForKey, waitX := 1, pc := 0x204 })
      (fun t => (t.keys, t.reg 1, t.pc, t.runState)) = some (0x800, 0x0B, 0x206, .running) := by decide
-- K11
theorem test_keyUp_waits :
    see (call (.keyUp 3) { State.reset with runState := .waitingForKey, keys := 8, pc := 0x204 })
      (fun t => (t.keys, t.pc, t.runState)) = some (0, 0x204, .waitingForKey) := by decide
-- K17
theorem test_decSt : see (call .decSt { State.reset with st := 1 }) (·.st) = some 0 := by decide
theorem test_decSt_stops : see (call .decSt State.reset) (·.st) = some 0 := by decide
-- K18
theorem test_readSt :
    see (call .readSt { State.reset with st := 9 }) (fun t => (t.reply, t.st)) = some (.soundTimer 9, 9) := by
  decide
-- P5, step 2
theorem test_step_while_waiting :
    see (step { State.reset with runState := .waitingForKey, dt := 5, pending := [.step 900 1] })
      (fun t => (t.reply, t.pc, t.dt, t.runState)) =
      some (.error .invalidState, 0x200, 5, .waitingForKey) := by decide
-- R114: fetch at 4095
theorem test_fetch_past_end :
    see (step { State.reset with pc := 0xFFF, pending := [.step 0 1] }) (fun t => (t.reply, t.pc)) =
      some (.error (.addressOutOfRange 0xFFF), 0xFFF) := by decide
-- P8, step 18
theorem test_unsupported :
    see (run 0x0000 { State.reset with pc := 0x202 }) (fun t => (t.reply, t.pc)) =
      some (.error (.unsupportedOpcode 0), 0x204) := by decide

/-! ## Load (vectors LD1 to LD3, L1.4) -/

-- LD1
theorem test_load :
    see (call (.load [0x12, 0x00] 500) { regs [(4, 9)] with runState := .waitingForKey, sp := 3 })
      (fun t => (t.mem, t.reg 4, t.sp, t.pc, t.runState, t.tickRef)) =
      some ([(0x200, 0x12)], 0, 0, 0x200, .running, 500) := by decide
-- L1.4: 3504 bytes fit and 3505 do not
theorem test_program_size :
    programFits (List.replicate 3504 0) = true ∧ programFits (List.replicate 3505 0) = false := by
  simp only [programFits, List.length_replicate]; decide
-- LD3
theorem test_idle_loop : see (run 0x1200 State.reset) (fun t => (t.pc, t.atIdleLoop)) = some (0x200, true) := by
  decide

/-! ## Witnesses: states and operands that meet the hypotheses of each obligation, each clause at a
boundary value -/

/-- The host's Step is due on the word `w` placed at PC. -/
def due (w now ticks : Nat) (s : State) : State :=
  { s.withFetchWord 16 w with pending := [.step now ticks] }

-- DecodeOfEncode, EncodeOfDecode, OpcodeMapDecides
theorem test_wit_DecodeOfEncode : (Instr.drw 15 15 15).wellFormed = true ∧ Instr.cls.wellFormed = true := by
  decide
theorem test_wit_EncodeOfDecode : decodeWord 0xDFFF = some (.drw 15 15 15) := by decide
theorem test_wit_OpcodeMapDecides :
    decodeWord 0xFF65 = some (.ldVxMem 15) ∧
    (⟨0xF0FF, 0xF065⟩ : Row) ∈ opcodeMap ∧ (⟨0xF0FF, 0xF065⟩ : Row).covers 0xFF65 = true ∧
    legalWord 0xFF66 = false := by decide

-- StepContract: waiting; ticking by one unit over the threshold; not ticking at it; PC at 4094 and at 4095;
-- a word that is no instruction
theorem test_wit_StepContract_waiting :
    (due 0x00E0 0 0 State.reset).StepDue 0 0 [] ∧
    ({ due 0x00E0 0 0 State.reset with runState := .waitingForKey } : State).runState = .waitingForKey := by
  decide
theorem test_wit_StepContract_ticks :
    (due 0x00E0 101 100 { State.reset with dt := 1 }).StepDue 101 100 [] ∧
    (due 0x00E0 101 100 { State.reset with dt := 1 }).dt ≠ 0 ∧
    101 - (due 0x00E0 101 100 { State.reset with dt := 1 }).tickRef > 100 := by decide
theorem test_wit_StepContract_last_word :
    (due 0x00E0 0 0 { State.reset with pc := 0xFFE }).StepDue 0 0 [] ∧
    (due 0x00E0 0 0 { State.reset with pc := 0xFFE }).pc.toNat + 2 ≤ 4096 ∧
    decodeWord (due 0x00E0 0 0 { State.reset with pc := 0xFFE }).wordAtPc = some .cls := by decide
theorem test_wit_StepContract_no_row :
    (due 0xFFFF 0 0 State.reset).StepDue 0 0 [] ∧
    decodeWord (due 0xFFFF 0 0 State.reset).wordAtPc = none := by decide

-- StepRunsDecodedInstruction: a Step that the host calls, and the one at a free time
theorem test_wit_StepRunsDecodedInstruction :
    (due 0x1FFF 0 0 State.reset).runState = .running ∧
    (due 0x1FFF 0 0 State.reset).pc.toNat + 2 ≤ 4096 ∧
    decodeWord (due 0x1FFF 0 0 State.reset).wordAtPc = some (.jp 0xFFF) ∧
    (Instr.jp 0xFFF).wellFormed = true ∧ (due 0x1FFF 0 0 State.reset).StepDue 0 0 [] := by decide
theorem test_wit_StepRunsDecodedInstruction_free :
    (State.reset.withFetchWord 16 0x1FFF).pending = [] ∧
    decodeWord (State.reset.withFetchWord 16 0x1FFF).wordAtPc = some (.jp 0xFFF) := by decide

-- StepWhileWaitingChangesNothing, FetchPastMemoryEnd (4095 and 0xFFFF), UnmatchedWordIsUnsupported
theorem test_wit_StepWhileWaiting :
    ({ State.reset with runState := .waitingForKey, pending := [.step 0 0] } : State).StepDue 0 0 [] := by
  decide
theorem test_wit_FetchPastMemoryEnd :
    ({ State.reset with pc := 0xFFF, pending := [.step 0 0] } : State).StepDue 0 0 [] ∧
    4095 ≤ ({ State.reset with pc := 0xFFF, pending := [.step 0 0] } : State).pc.toNat ∧
    ({ State.reset with pc := 0xFFFF, pending := [.step 0 0] } : State).StepDue 0 0 [] ∧
    4095 ≤ ({ State.reset with pc := 0xFFFF, pending := [.step 0 0] } : State).pc.toNat := by decide
theorem test_wit_UnmatchedWord :
    (due 0x0000 0 0 State.reset).StepDue 0 0 [] ∧ (due 0x0000 0 0 State.reset).runState = .running ∧
    (due 0x0000 0 0 State.reset).pc.toNat + 2 ≤ 4096 ∧
    ∀ r ∈ opcodeMap, r.covers (due 0x0000 0 0 State.reset).wordAtPc = false := by decide

-- DelayTimerDropsByAtMostOne: a Step that answers a next state, on FX07
theorem test_wit_DelayTimer :
    (due 0xF007 101 100 { State.reset with dt := 1 }).StepDue 101 100 [] ∧
    (∀ x, decodeWord (due 0xF007 101 100 { State.reset with dt := 1 }).wordAtPc ≠ some (.ldDtVx x)) ∧
    see (step (due 0xF007 101 100 { State.reset with dt := 1 })) (·.dt) = some 0 := by decide

-- CallPushesReturnAddress, CallThenRetReturns: SP = 0 and SP = 15
theorem test_wit_Call : State.reset.sp < 16 ∧ ({ State.reset with sp := 15 } : State).sp < 16 := by decide
-- RetPopsReturnAddress: SP = 1 and SP = 16
theorem test_wit_Ret :
    (1 ≤ ({ State.reset with sp := 1 } : State).sp ∧ ({ State.reset with sp := 1 } : State).sp ≤ 16) ∧
    1 ≤ ({ State.reset with sp := 16 } : State).sp ∧ ({ State.reset with sp := 16 } : State).sp ≤ 16 := by
  decide
-- InstructionErrors: each clause at the first value outside the range
theorem test_wit_InstructionErrors_stack :
    State.reset.sp = 0 ∧ ({ State.reset with sp := 16 } : State).sp = 16 ∧
    16 < ({ State.reset with sp := 17 } : State).sp := by decide
theorem test_wit_InstructionErrors_range :
    4096 < ({ State.reset with i := 0xFFE } : State).i.toNat + 3 ∧
    4096 < ({ State.reset with i := 0xFF1 } : State).i.toNat + ((15 : RegIdx).val + 1) ∧
    4096 < ({ State.reset with i := 0x1000 } : State).i.toNat + ((0 : RegIdx).val + 1) ∧
    (1 : Fin 16).val ≠ 0 ∧ 4096 < ({ State.reset with i := 0x1000 } : State).i.toNat + (1 : Fin 16).val := by
  decide
-- SkipsOnImmediate, SkipsOnRegisters, SkipsOnKey: both outcomes
theorem test_wit_SkipsOnImmediate :
    State.reset.reg 3 = 0 ∧ State.reset.reg 3 ≠ 0xFF := by decide
theorem test_wit_SkipsOnRegisters :
    (regs [(0, 5)]).reg 0 ≠ (regs [(0, 5)]).reg 1 ∧ (regs [(0, 5)]).reg 1 = (regs [(0, 5)]).reg 2 := by decide
theorem test_wit_SkipsOnKey :
    (((regs [(1, 15)]).reg 1).toNat ≤ 15 ∧
      ({ regs [(1, 15)] with keys := 0x8000 } : State).keys.getLsbD ((regs [(1, 15)]).reg 1).toNat = true) ∧
    ¬ ((regs [(1, 16)]).reg 1).toNat ≤ 15 := by decide
-- AddSetsCarry, SubtractsWriteFlagFirst: both values of the flag; ShiftsWriteFlagFirst, FlagOrdersAgreeOffF:
-- X = F and X = E
theorem test_wit_AddSetsCarry :
    ((regs [(0, 0xFF), (1, 1)]).reg 0).toNat + ((regs [(0, 0xFF), (1, 1)]).reg 1).toNat > 255 ∧
    ¬ ((regs [(0, 0xFE), (1, 1)]).reg 0).toNat + ((regs [(0, 0xFE), (1, 1)]).reg 1).toNat > 255 := by decide
theorem test_wit_Subtracts :
    ((regs [(0, 1)]).reg 0).toNat > ((regs [(0, 1)]).reg 1).toNat ∧
    ¬ (State.reset.reg 0).toNat > (State.reset.reg 1).toNat := by decide
theorem test_wit_regF : (14 : RegIdx) ≠ regF ∧ (15 : RegIdx) = regF := by decide

-- Memory: the last address of each range
theorem test_wit_StoresDecimalDigits : ({ State.reset with i := 0xFFD } : State).i.toNat + 3 ≤ 4096 := by
  decide
theorem test_wit_RegisterBlocks :
    ({ State.reset with i := 0xFF0 } : State).i.toNat + ((15 : RegIdx).val + 1) ≤ 4096 ∧
    ({ State.reset with i := 0xFFF } : State).i.toNat + ((0 : RegIdx).val + 1) ≤ 4096 := by decide
theorem test_wit_StoreThenLoad : ∃ t u : State,
    ({ State.reset with i := 0xFF0 } : State).i.toNat + ((15 : RegIdx).val + 1) ≤ 4096 ∧
    exec (.ldMemVx 15) { State.reset with i := 0xFF0 } = .next t ∧ u.mem = t.mem ∧ u.i = t.i :=
  ⟨_, _, by decide, rfl, rfl, rfl⟩
theorem test_wit_VariantsAgreeInRange :
    4080 + 16 ≤ 4096 ∧ 4095 + [(7 : Byte)].length ≤ 4096 ∧ (15 : Byte).toNat ≤ 15 := by decide

-- Display: N = 0 with I out of range, and the last address; a collision, and none
theorem test_wit_Draw_in_range :
    ((0 : Fin 16).val = 0 ∨ ({ State.reset with i := 0xFFFF } : State).i.toNat + (0 : Fin 16).val ≤ 4096) ∧
    ((15 : Fin 16).val = 0 ∨ ({ State.reset with i := 0xFF1 } : State).i.toNat + (15 : Fin 16).val ≤ 4096) ∧
    (0 : RegIdx) ≠ regF ∧ (1 : RegIdx) ≠ regF := by decide
theorem test_wit_Draw_collides : ∃ c r,
    (fbOf [(63, 31)]).cell c r = true ∧
    spritePixel (bytesAt 0x300 [0x80] State.reset).mem 0x300 1 63 31 c r = true :=
  ⟨63, 31, by decide, by decide⟩
theorem test_wit_Draw_misses : ∀ c r, FrameBuffer.empty.cell c r = true →
    spritePixel (bytesAt 0x300 [0x80] State.reset).mem 0x300 1 63 31 c r = false := by
  intro c r h
  simp [FrameBuffer.cell, FrameBuffer.empty] at h
theorem test_wit_DrawTwice_second_hits : ∃ c r,
    FrameBuffer.empty.cell c r = false ∧
    spritePixel (bytesAt 0x300 [0x80] State.reset).mem 0x300 1 63 31 c r = true :=
  ⟨63, 31, by decide, by decide⟩
theorem test_wit_DrawTwice_second_misses : ∀ c r, FrameBuffer.empty.cell c r = false →
    spritePixel (bytesAt 0x300 [0xFF] State.reset).mem 0x300 1 64 0 c r = false := by
  intro c r _
  have h : ¬ (64 ≤ c ∧ c < 64 + 8 ∧ c < 64 ∧ 0 ≤ r ∧ r < 0 + 1 ∧ r < 32) := by omega
  simp only [spritePixel, h, decide_false, Bool.false_and]

-- ReadsDelayTimer: a Step in which DT ticks, and one in which it does not
theorem test_wit_ReadsDelayTimer_ticks :
    (due 0xFF07 101 100 { State.reset with dt := 1 }).StepDue 101 100 [] ∧
    (due 0xFF07 101 100 { State.reset with dt := 1 }).runState = .running ∧
    (due 0xFF07 101 100 { State.reset with dt := 1 }).pc.toNat + 2 ≤ 4096 ∧
    decodeWord (due 0xFF07 101 100 { State.reset with dt := 1 }).wordAtPc = some (.ldVxDt 15) ∧
    see (step (due 0xFF07 101 100 { State.reset with dt := 1 })) (fun t => decide (t.dt ≠ 1)) =
      some true := by decide
theorem test_wit_ReadsDelayTimer_stays :
    (due 0xFF07 100 100 { State.reset with dt := 1 }).StepDue 100 100 [] ∧
    decodeWord (due 0xFF07 100 100 { State.reset with dt := 1 }).wordAtPc = some (.ldVxDt 15) ∧
    see (step (due 0xFF07 100 100 { State.reset with dt := 1 })) (fun t => (t.dt, t.reg 15)) =
      some (1, 1) := by decide

-- Keys: k = 15, running and waiting
theorem test_wit_KeyDown :
    ({ State.reset with pending := [.keyDown 15] } : State).pending = .keyDown 15 :: [] ∧ 15 ≤ 15 ∧
    ({ State.reset with pending := [.keyDown 15] } : State).runState = .running ∧
    ({ State.reset with runState := .waitingForKey, pending := [.keyDown 15] } : State).runState =
      .waitingForKey := by decide
theorem test_wit_KeyUp :
    ({ State.reset with pending := [.keyUp 15] } : State).pending = .keyUp 15 :: [] ∧ 15 ≤ 15 := by decide
theorem test_wit_KeyWait : ∃ t, exec (.ldVxK 15) State.reset.advance = .next t ∧ 15 ≤ 15 :=
  ⟨_, rfl, by decide⟩

-- SoundTimerIsNeverRead, FailingInstructionWritesNothing, OnlyTheWritersWrite, OnlyFlagInstructionsWriteVf
theorem test_wit_exec_next : ∃ t, exec (.ldStVx 0) (regs [(0, 5)]) = .next t ∧ t.st ≠ (regs [(0, 5)]).st :=
  ⟨_, rfl, by decide⟩
theorem test_wit_exec_error : ∃ t, exec .ret State.reset = .next t ∧ t.errors ≠ State.reset.errors :=
  ⟨_, rfl, by decide⟩
theorem test_wit_exec_writes :
    see (exec (.ldB 0) (regs [(0, 200)])) (fun t => decide (t.mem ≠ (regs [(0, 200)]).mem)) = some true ∧
    see (exec (.drw 0 0 1) State.reset) (fun t => decide (t.fb ≠ State.reset.fb)) = some true ∧
    see (exec (.ldI 1) State.reset) (fun t => decide (t.i ≠ State.reset.i)) = some true ∧
    see (exec (.call 0) { State.reset with pc := 0x202 }) (fun t => decide (t.stack ≠ State.reset.stack)) =
      some true ∧
    see (exec (.call 0) State.reset) (fun t => decide (t.sp ≠ State.reset.sp)) = some true := by decide
theorem test_wit_exec_writes_more :
    see (exec (.ldDtVx 0) (regs [(0, 5)])) (fun t => decide (t.dt ≠ State.reset.dt)) = some true ∧
    see (exec (.ldVxK 15) State.reset) (fun t => decide (t.waitX ≠ State.reset.waitX)) = some true ∧
    see (exec (.ldVxMem 15) State.reset) (fun t => decide (t.reg 14 ≠ State.reset.reg 14)) = some true ∧
    see (exec (.skp 0) { State.reset with keys := 1 }) (fun t => decide (t.pc ≠ State.reset.pc)) = some true ∧
    see (exec (.rnd 0 0) State.reset) (fun t => decide (t.draws ≠ State.reset.draws)) = some true ∧
    see (exec (.shl 0 0) (regs [(0, 0x80)])) (fun t => decide (t.reg regF ≠ State.reset.reg regF)) =
      some true := by decide

-- Load: the longest program that fits, and the shortest that does not
theorem test_wit_LoadResetsEverything :
    ({ State.reset with pending := [.load (List.replicate 3504 7) 0] } : State).pending =
      .load (List.replicate 3504 7) 0 :: [] ∧ State.reset.hostNow ≤ 0 ∧
    80 + 512 + (List.replicate 3504 (7 : Byte)).length ≤ 4096 :=
  ⟨rfl, Nat.le_refl 0, by rw [List.length_replicate]⟩
theorem test_wit_LoadTooLarge :
    ({ State.reset with pending := [.load (List.replicate 3505 7) 0] } : State).pending =
      .load (List.replicate 3505 7) 0 :: [] ∧ State.reset.hostNow ≤ 0 ∧
    4096 < 80 + 512 + (List.replicate 3505 (7 : Byte)).length :=
  ⟨rfl, Nat.le_refl 0, by rw [List.length_replicate]; decide⟩
theorem test_wit_Creation : ({ regs [(3, 9)] with hostNow := 0, sp := 16 } : State).hostNow = 0 := by decide

-- The invariants: SP = 16, TICK_REF at the host's time, a byte listed at 4095; a wait at an FX0A
theorem test_wit_Inv :
    ({ due 0x00E0 5 1 (bytesAt 0xFFF [9] State.reset) with sp := 16, tickRef := 5, hostNow := 5 } :
      State).Inv ∧
    see (step { due 0x00E0 5 1 (bytesAt 0xFFF [9] State.reset) with sp := 16, tickRef := 5, hostNow := 5 })
      (·.sp) = some 16 := by decide
theorem test_wit_WaitInv :
    ({ due 0xFF0A 0 0 State.reset with waitX := 15, runState := .waitingForKey } : State).WaitInv ∧
    see (step { due 0xFF0A 0 0 State.reset with waitX := 15, runState := .waitingForKey })
      (·.runState) = some .waitingForKey := by decide
-- OnlyTheseEventsChangeState: a wait that ends and one that begins
theorem test_wit_StateChanges :
    see (step { State.reset with runState := .waitingForKey, pending := [.keyDown 0] }) (·.runState) =
      some .running ∧
    see (step { State.reset with runState := .waitingForKey, pending := [.load [] 0] }) (·.runState) =
      some .running ∧
    see (step (due 0xF00A 0 0 State.reset)) (·.runState) = some .waitingForKey := by decide
-- RefusedExactlyOnBrokenDuty: each broken duty at its first value
theorem test_wit_Refused : ∃ r q p k,
    step { State.reset with hostNow := 6, pending := [.step 5 1] } = .refused r ∧
    step { State.reset with hostNow := 6, pending := [.load [] 5] } = .refused q ∧
    step { State.reset with pending := [.keyDown 16] } = .refused p ∧
    step { State.reset with pending := [.keyUp 16] } = .refused k := ⟨_, _, _, _, rfl, rfl, rfl, rfl⟩
-- TransactionsRunInOrder: without an error and with one
theorem test_wit_Transactions :
    see (step { State.reset with pending := [.readSt, .decSt] }) (fun t => (t.pending, t.errors)) =
      some ([.decSt], []) ∧
    see (step (due 0xFFFF 0 0 State.reset)) (·.errors) = some [.unsupportedOpcode 0xFFFF] := by decide
-- IdleLoopOnlyTicks
theorem test_wit_IdleLoop :
    (due 0x1200 200 100 { State.reset with dt := 1 }).StepDue 200 100 [] ∧
    (due 0x1200 200 100 { State.reset with dt := 1 }).atIdleLoop = true := by decide

end Sys2Proof.Tests
end

section
/-! PROOF. Which V registers an instruction may change: its destinations and, if it sets the flag, VF (R20,
R22, R23). Every other register is kept by `exec`. -/

namespace Sys2Proof

/-- The V registers that an instruction writes (R20): its destination `V[X]`, VF where the rule sets the flag,
`V[0..X]` for FX65, and none for an instruction that writes no V register. -/
def Instr.destRegs : Instr → List RegIdx
  | .ldImm x _ | .addImm x _ | .rnd x _ | .ldVxDt x => [x]
  | .ldReg x _ | .orReg x _ | .andReg x _ | .xorReg x _ => [x]
  | .addReg x _ | .sub x _ | .shr x _ | .subn x _ | .shl x _ => [x, regF]
  | .drw _ _ _ => [regF]
  | .ldVxMem x => (List.finRange 16).filter (· ≤ x)
  | .cls | .ret | .jp _ | .call _ | .seImm _ _ | .sneImm _ _ | .seReg _ _ | .sneReg _ _ | .ldI _ | .jpV0 _
  | .skp _ | .sknp _ | .ldVxK _ | .ldDtVx _ | .ldStVx _ | .addI _ | .ldF _ | .ldB _ | .ldMemVx _ => []

@[simp] theorem mem_destRegs_ldVxMem (x y : RegIdx) : y ∈ (Instr.ldVxMem x).destRegs ↔ y ≤ x := by
  simp [Instr.destRegs]

/-- VF is the last of the sixteen registers, so only FX65 with X = F reaches it. -/
theorem regF_le_iff (x : RegIdx) : regF ≤ x ↔ x = regF :=
  ⟨fun h => le_antisymm (Fin.le_last x) h, fun h => h.ge⟩

end Sys2Proof

namespace Sys2Proof.Machine

/-! ## Registers kept by the operations that answer a next state -/

theorem raise_keeps_reg {e : CoreError} {s t : State} (h : raise e s = .next t) (y : RegIdx) :
    t.reg y = s.reg y := by
  cases h; rfl

theorem storeBlock_keeps_reg {bs : List Byte} {s t : State} (h : storeBlock bs s = .next t) (y : RegIdx) :
    t.reg y = s.reg y := by
  rcases storeBlock_cases bs s with ⟨hin, -⟩ | hout
  · cases hin.symm.trans h; rfl
  · exact raise_keeps_reg (hout.symm.trans h) y

/-- A block read goes on with `n` bytes, or an error leaves the registers alone: what is kept by every way to
go on is kept by the read. -/
theorem withBlock_keeps_reg {n : Nat} {s t : State} {use : List Byte → Result} {y : RegIdx}
    (huse : ∀ bytes, bytes.length = n → use bytes = .next t → t.reg y = s.reg y)
    (h : withBlock n s use = .next t) : t.reg y = s.reg y := by
  by_cases hin : n = 0 ∨ s.i.toNat + n ≤ 4096
  · rw [withBlock_in n s use hin] at h
    exact huse _ (by simp) h
  · rw [withBlock_out n s use hin] at h
    exact raise_keeps_reg h y

theorem execRet_keeps_reg {s t : State} (h : execRet s = .next t) (y : RegIdx) : t.reg y = s.reg y := by
  unfold execRet at h
  split at h
  · exact raise_keeps_reg h y
  · split at h <;> cases h
    rfl

theorem execCall_keeps_reg {nnn : BitVec 12} {s t : State} (h : execCall nnn s = .next t) (y : RegIdx) :
    t.reg y = s.reg y := by
  unfold execCall at h
  split at h
  · exact raise_keeps_reg h y
  · split at h <;> cases h
    rfl

theorem setRegs_keeps_reg (s : State) {bytes : List Byte} {y : RegIdx} (h : bytes.length ≤ y.val) :
    (s.setRegs bytes).reg y = s.reg y := by
  rw [reg_setRegs, List.getD_eq_default _ _ h]

/-! ## Registers kept by an instruction -/

/-- An instruction keeps every register that is not one of its destinations (R20, R23). -/
theorem exec_keeps_reg {i : Instr} {s t : State} (h : exec i s = .next t) {y : RegIdx}
    (hy : y ∉ i.destRegs) : t.reg y = s.reg y := by
  cases i
  case ldImm | addImm | ldReg | orReg | andReg | xorReg | ldVxDt =>
    cases h; exact (setReg_onlyRegs s _ _).2 y hy
  case rnd => cases h; exact (setReg_onlyRegs s.drawRand8.2 _ _).2 y hy
  case addReg => cases h; exact (resultThenFlag_onlyRegs _ _ _ s).2 y hy
  case sub | shr | subn | shl => cases h; exact (flagThenResult_onlyRegs _ _ _ _ s).2 y hy
  case drw =>
    refine withBlock_keeps_reg (fun bytes _ hnext => ?_) h
    cases hnext; exact (setReg_onlyRegs { s with fb := _ } regF _).2 y hy
  case ldVxMem x =>
    refine withBlock_keeps_reg (fun bytes hlen hnext => ?_) h
    have hxy : x < y := by simpa using hy
    cases hnext; exact setRegs_keeps_reg s (hlen.trans_le hxy)
  case ret => exact execRet_keeps_reg h y
  case call => exact execCall_keeps_reg h y
  case ldB | ldMemVx => exact storeBlock_keeps_reg h y
  case seImm | sneImm | seReg | sneReg => cases h; exact reg_skipIf s _ y
  case skp | sknp =>
    simp only [exec, execSkp, execSknp, params_keyOorPolicy, keyPressed_default] at h
    cases h; exact reg_skipIf s _ y
  case cls | jp | jpV0 | ldI | addI | ldF | ldVxK | ldDtVx | ldStVx => cases h; rfl

end Sys2Proof.Machine
end

section
/-! PROOF. VF is changed only by the instructions R23 names. -/

namespace Sys2Proof.Machine

/-- Settles O59: a changed VF is a destination of the instruction, and the instructions with VF among their
destinations are those of R23. -/
theorem onlyFlagInstructionsWriteVf : Obligations.OnlyFlagInstructionsWriteVf := by
  intro i s t h hne
  have hF : regF ∈ i.destRegs := by
    by_contra hF
    exact hne (exec_keeps_reg h hF)
  cases i
  case addReg x y | sub x y | shr x y | subn x y | shl x y => exact .inl ⟨x, y, by simp⟩
  case drw x y n => exact .inl ⟨x, y, by simp⟩
  case ldImm x nn | addImm x nn | rnd x nn =>
    obtain rfl := List.mem_singleton.1 hF
    exact .inr (.inl ⟨nn, by simp⟩)
  case ldReg x y | orReg x y | andReg x y | xorReg x y =>
    obtain rfl := List.mem_singleton.1 hF
    exact .inr (.inr (.inl ⟨y, by simp⟩))
  case ldVxDt x =>
    obtain rfl := List.mem_singleton.1 hF
    exact .inr (.inr (.inr (.inl rfl)))
  case ldVxMem x =>
    obtain rfl := (regF_le_iff x).1 ((mem_destRegs_ldVxMem x regF).1 hF)
    exact .inr (.inr (.inr (.inr rfl)))
  all_goals exact absurd hF List.not_mem_nil

end Sys2Proof.Machine
end

section
/-! PROOF. The opcode map decides decoding (R92, R95, R96). A row covers a word exactly when the fields its
mask selects agree with those of its pattern; the decoder reads the same fields. -/

namespace Sys2Proof

/-! ## Covering, field by field -/

theorem opField_eq (w : Word) : opField w = w.toNat / 4096 := by
  have := w.isLt
  simp only [opField, bitField]
  omega

/-- A pattern with no bit outside the mask makes covering the agreement of two masked words. -/
theorem covers_iff {m p : Word} (hp : p &&& m = p) (w : Word) :
    Row.covers ⟨m, p⟩ w = true ↔ w &&& m = p &&& m := by
  rw [Row.covers, beq_iff_eq, hp]

/-- Formats NNN, XNN and XYN: the row fixes the top nibble. -/
theorem covers_F000_iff {p : Word} (hp : p &&& 0xF000 = p) (w : Word) :
    Row.covers ⟨0xF000, p⟩ w = true ↔ opField w = opField p := by
  have := w.isLt
  have := p.isLt
  rw [covers_iff hp, and_F000, and_F000, ← BitVec.toNat_inj, opField_eq, opField_eq]
  simp only [BitVec.toNat_ofNat]
  omega

/-- Format XY: the row fixes the top and the low nibble. -/
theorem covers_F00F_iff {p : Word} (hp : p &&& 0xF00F = p) (w : Word) :
    Row.covers ⟨0xF00F, p⟩ w = true ↔ opField w = opField p ∧ bitField w 0 4 = bitField p 0 4 := by
  have := w.isLt
  have := p.isLt
  rw [covers_iff hp, and_F00F, and_F00F, ← BitVec.toNat_inj, opField_eq, opField_eq]
  simp only [bitField, BitVec.toNat_ofNat]
  omega

/-- Format X: the row fixes the top nibble and the low byte. -/
theorem covers_F0FF_iff {p : Word} (hp : p &&& 0xF0FF = p) (w : Word) :
    Row.covers ⟨0xF0FF, p⟩ w = true ↔ opField w = opField p ∧ bitField w 0 8 = bitField p 0 8 := by
  have := w.isLt
  have := p.isLt
  rw [covers_iff hp, and_F0FF, and_F0FF, ← BitVec.toNat_inj, opField_eq, opField_eq]
  simp only [bitField, BitVec.toNat_ofNat]
  omega

/-- Format FIXED: the row fixes the whole word. -/
theorem covers_FFFF_iff (p w : Word) :
    Row.covers ⟨0xFFFF, p⟩ w = true ↔ opField w = opField p ∧ bitField w 0 12 = bitField p 0 12 := by
  have hones (v : Word) : v &&& 0xFFFF = v := BitVec.and_allOnes
  rw [Row.covers, beq_iff_eq, hones, ← BitVec.toNat_inj, opField_eq, opField_eq]
  simp only [bitField]
  omega

/-! ## A decoded word matches its instruction's row -/

theorem decodeGroup0_covers {w : Word} {i : Instr} (hop : opField w = 0x0) (h : decodeGroup0 w = some i) :
    i.row.covers w = true := by
  unfold decodeGroup0 at h
  split at h <;> cases h
  all_goals exact (covers_FFFF_iff _ w).2 ⟨hop, ‹_›⟩

theorem decodeGroup5_covers {w : Word} {i : Instr} (hop : opField w = 0x5) (h : decodeGroup5 w = some i) :
    i.row.covers w = true := by
  unfold decodeGroup5 at h
  split at h <;> cases h
  exact (covers_F00F_iff rfl w).2 ⟨hop, ‹_›⟩

theorem decodeGroup8_covers {w : Word} {i : Instr} (hop : opField w = 0x8) (h : decodeGroup8 w = some i) :
    i.row.covers w = true := by
  unfold decodeGroup8 at h
  split at h <;> cases h
  all_goals exact (covers_F00F_iff rfl w).2 ⟨hop, ‹_›⟩

theorem decodeGroup9_covers {w : Word} {i : Instr} (hop : opField w = 0x9) (h : decodeGroup9 w = some i) :
    i.row.covers w = true := by
  unfold decodeGroup9 at h
  split at h <;> cases h
  exact (covers_F00F_iff rfl w).2 ⟨hop, ‹_›⟩

theorem decodeGroupE_covers {w : Word} {i : Instr} (hop : opField w = 0xE) (h : decodeGroupE w = some i) :
    i.row.covers w = true := by
  unfold decodeGroupE at h
  split at h <;> cases h
  all_goals exact (covers_F0FF_iff rfl w).2 ⟨hop, ‹_›⟩

theorem decodeGroupF_covers {w : Word} {i : Instr} (hop : opField w = 0xF) (h : decodeGroupF w = some i) :
    i.row.covers w = true := by
  unfold decodeGroupF at h
  split at h <;> cases h
  all_goals exact (covers_F0FF_iff rfl w).2 ⟨hop, ‹_›⟩

/-- Soundness of the decoder for the map (R92): by the top nibble, then by the group's selector (R95). -/
theorem row_covers_of_decodeWord {w : Word} {i : Instr} (h : decodeWord w = some i) :
    i.row.covers w = true := by
  unfold decodeWord at h
  split at h
  case h_1 hop => exact decodeGroup0_covers hop h
  case h_6 hop => exact decodeGroup5_covers hop h
  case h_9 hop => exact decodeGroup8_covers hop h
  case h_10 hop => exact decodeGroup9_covers hop h
  case h_15 hop => exact decodeGroupE_covers hop h
  case h_16 hop => exact decodeGroupF_covers hop h
  all_goals cases h
  all_goals exact (covers_F000_iff rfl w).2 ‹_›

/-! ## A word that matches an instruction's row decodes to an instruction of that row -/

/-- Completeness of the decoder for the map (R92): the fields that the row fixes choose the decoder's branch,
and the operand fields do not matter. -/
theorem map_row_decodeWord_of_row_covers {w : Word} {i : Instr} (h : i.row.covers w = true) :
    (decodeWord w).map Instr.row = some i.row := by
  cases i
  case jp | call | seImm | sneImm | ldImm | addImm | ldI | jpV0 | rnd | drw =>
    have hop := (covers_F000_iff rfl w).1 h
    rw [decodeWord, hop]; rfl
  case cls | ret =>
    obtain ⟨hop, hsel⟩ := (covers_FFFF_iff _ w).1 h
    rw [decodeWord, hop, decodeGroup0, hsel]; rfl
  case seReg =>
    obtain ⟨hop, hsel⟩ := (covers_F00F_iff rfl w).1 h
    rw [decodeWord, hop, decodeGroup5, hsel]; rfl
  case ldReg | orReg | andReg | xorReg | addReg | sub | shr | subn | shl =>
    obtain ⟨hop, hsel⟩ := (covers_F00F_iff rfl w).1 h
    rw [decodeWord, hop, decodeGroup8, hsel]; rfl
  case sneReg =>
    obtain ⟨hop, hsel⟩ := (covers_F00F_iff rfl w).1 h
    rw [decodeWord, hop, decodeGroup9, hsel]; rfl
  case skp | sknp =>
    obtain ⟨hop, hsel⟩ := (covers_F0FF_iff rfl w).1 h
    rw [decodeWord, hop, decodeGroupE, hsel]; rfl
  case ldVxDt | ldVxK | ldDtVx | ldStVx | addI | ldF | ldB | ldMemVx | ldVxMem =>
    obtain ⟨hop, hsel⟩ := (covers_F0FF_iff rfl w).1 h
    rw [decodeWord, hop, decodeGroupF, hsel]; rfl

/-- Every row of the map is the row of an instruction: the one its own pattern decodes to. -/
theorem exists_row_eq {r : Row} (hr : r ∈ opcodeMap) : ∃ i : Instr, i.row = r := by
  have hpat : ∀ r ∈ opcodeMap, (decodeWord r.pattern).map Instr.row = some r := by decide
  obtain ⟨i, -, hi⟩ := Option.map_eq_some_iff.1 (hpat r hr)
  exact ⟨i, hi⟩

theorem map_row_decodeWord_of_covers {w : Word} {r : Row} (hr : r ∈ opcodeMap) (h : r.covers w = true) :
    (decodeWord w).map Instr.row = some r := by
  obtain ⟨i, rfl⟩ := exists_row_eq hr
  exact map_row_decodeWord_of_row_covers h

theorem exists_decodeWord_of_covers {w : Word} {r : Row} (hr : r ∈ opcodeMap) (h : r.covers w = true) :
    ∃ i, decodeWord w = some i ∧ i.row = r :=
  Option.map_eq_some_iff.1 (map_row_decodeWord_of_covers hr h)

/-! ## What follows: one row for a word, and the illegal words -/

/-- Rows that match the same word are equal (R92): each is the row of what the word decodes to. -/
theorem row_eq_of_covers {w : Word} {r q : Row} (hr : r ∈ opcodeMap) (hq : q ∈ opcodeMap)
    (hrw : r.covers w = true) (hqw : q.covers w = true) : r = q :=
  Option.some.inj ((map_row_decodeWord_of_covers hr hrw).symm.trans (map_row_decodeWord_of_covers hq hqw))

theorem legalWord_iff (w : Word) : legalWord w = true ↔ ∃ i, decodeWord w = some i := by
  rw [legalWord, List.any_eq_true]
  constructor
  · rintro ⟨r, hr, h⟩
    obtain ⟨i, hi, -⟩ := exists_decodeWord_of_covers hr h
    exact ⟨i, hi⟩
  · rintro ⟨i, hi⟩
    exact ⟨i.row, row_mem i, row_covers_of_decodeWord hi⟩

/-- The illegal words are those that decode to nothing (R96). -/
theorem legalWord_eq_false_iff (w : Word) : legalWord w = false ↔ decodeWord w = none := by
  rw [← Bool.not_eq_true, legalWord_iff, ← Option.isSome_iff_exists, Option.not_isSome_iff_eq_none]

/-- Settles O4: soundness and completeness of the decoder for the map, from which uniqueness of the row and
the illegal words follow. -/
theorem opcodeMapDecides : Obligations.OpcodeMapDecides :=
  ⟨opcodeMap_length, fun _ i h => ⟨row_mem i, row_covers_of_decodeWord h⟩,
    fun _ _ => exists_decodeWord_of_covers, fun _ _ _ => row_eq_of_covers, legalWord_eq_false_iff⟩

end Sys2Proof
end

section
/-! PROOF. A fetched word that no row of the opcode map matches (R117): a due Step that fetches in range decodes
and executes the word at PC, and such a word decodes to nothing. -/

namespace Sys2Proof.Machine

/-- A due Step while running is the timer phase and then phases 2 to 5 (R111). -/
theorem step_due_running {s : State} {now ticks : Nat} {rest : List HostCall} (hdue : s.StepDue now ticks rest)
    (hrun : s.runState = .running) :
    step s = fetchAndExecute (timerPhase now ticks (s.stepStart now rest)) :=
  (step_due s now ticks rest hdue).trans (stepPhases_running _ now ticks hrun)

/-- The timer phase moves neither PC nor Memory, so a due Step whose fetch is in range decodes the word that
stood at PC when the Step began. -/
theorem step_due_fetches {s : State} {now ticks : Nat} {rest : List HostCall} (hdue : s.StepDue now ticks rest)
    (hrun : s.runState = .running) (hpc : s.pc.toNat + 2 ≤ 4096) :
    step s = decodeAndExecute s.wordAtPc (timerPhase now ticks (s.stepStart now rest)).advance := by
  have hin : ¬ (timerPhase now ticks (s.stepStart now rest)).pc.toNat + 2 > 4096 := by
    rw [timerPhase_pc]; exact hpc.not_gt
  rw [step_due_running hdue hrun, fetchAndExecute_eq, if_neg hin, State.wordAtPc, timerPhase_mem, timerPhase_pc]

/-- A word that no row of the map covers decodes to nothing (R96). -/
theorem decodeWord_eq_none_of_uncovered {w : Word} (h : ∀ r ∈ opcodeMap, r.covers w = false) :
    decodeWord w = none :=
  (legalWord_eq_false_iff w).1 (List.any_eq_false.2 fun r hr => Bool.eq_false_iff.1 (h r hr))

/-- Phase 4 on a word that decodes to nothing raises the error with that word (R117). -/
theorem decodeAndExecute_of_none {w : Word} (h : decodeWord w = none) (s : State) :
    decodeAndExecute w s = raise (.unsupportedOpcode w) s := by
  rw [decodeAndExecute, h]

/-- Settles O9: the Step decodes the word at PC, which no row covers, and so raises the error on it. -/
theorem unmatchedWordIsUnsupported : Obligations.UnmatchedWordIsUnsupported := by
  intro s now ticks rest hdue hrun hpc hnone
  have hdecode : decodeWord s.wordAtPc = none := decodeWord_eq_none_of_uncovered hnone
  exact ⟨_, (step_due_fetches hdue hrun hpc).trans (decodeAndExecute_of_none hdecode _), rfl⟩

end Sys2Proof.Machine
end

section
/-! PROOF. Every instruction stands on its row (R91, R92): the encoder lays the fields out where the decoder
reads them, so the word decodes back to the instruction, and a word that decodes to it matches its row. -/

namespace Sys2Proof

/-! ## Format NNN: the fields of the word -/

theorem opField_encodeNnn {op : Nat} (hop : op < 16) (nnn : BitVec 12) : opField (encodeNnn op nnn) = op := by
  have := nnn.isLt
  rw [opField_eq, encodeNnn, BitVec.toNat_ofNat]
  omega

theorem nnnField_encodeNnn (op : Nat) (nnn : BitVec 12) : nnnField (encodeNnn op nnn) = nnn := by
  have := nnn.isLt
  apply BitVec.eq_of_toNat_eq
  simp only [nnnField, bitField, encodeNnn, BitVec.toNat_ofNat]
  omega

/-! ## Format XNN: the fields of the word -/

theorem opField_encodeXnn {op : Nat} (hop : op < 16) (x : RegIdx) (nn : Byte) :
    opField (encodeXnn op x nn) = op := by
  have := nn.isLt
  rw [opField_eq, encodeXnn, BitVec.toNat_ofNat]
  omega

theorem xField_encodeXnn (op : Nat) (x : RegIdx) (nn : Byte) : xField (encodeXnn op x nn) = x := by
  have := nn.isLt
  apply Fin.ext
  simp only [xField, bitField, encodeXnn, BitVec.toNat_ofNat]
  omega

theorem lowByte_encodeXnn (op : Nat) (x : RegIdx) (nn : Byte) :
    bitField (encodeXnn op x nn) 0 8 = nn.toNat := by
  have := nn.isLt
  simp only [bitField, encodeXnn, BitVec.toNat_ofNat]
  omega

theorem nnField_encodeXnn (op : Nat) (x : RegIdx) (nn : Byte) : nnField (encodeXnn op x nn) = nn := by
  rw [nnField, lowByte_encodeXnn, BitVec.ofNat_toNat, BitVec.setWidth_eq]

/-! ## Formats XY and XYN: the fields of the word -/

theorem opField_encodeXyn {op : Nat} (hop : op < 16) (x y : RegIdx) (low : Fin 16) :
    opField (encodeXyn op x y low) = op := by
  rw [opField_eq, encodeXyn, BitVec.toNat_ofNat]
  omega

theorem xField_encodeXyn (op : Nat) (x y : RegIdx) (low : Fin 16) : xField (encodeXyn op x y low) = x := by
  apply Fin.ext
  simp only [xField, bitField, encodeXyn, BitVec.toNat_ofNat]
  omega

theorem yField_encodeXyn (op : Nat) (x y : RegIdx) (low : Fin 16) : yField (encodeXyn op x y low) = y := by
  apply Fin.ext
  simp only [yField, bitField, encodeXyn, BitVec.toNat_ofNat]
  omega

theorem lowNibble_encodeXyn (op : Nat) (x y : RegIdx) (low : Fin 16) :
    bitField (encodeXyn op x y low) 0 4 = low.val := by
  simp only [bitField, encodeXyn, BitVec.toNat_ofNat]
  omega

theorem nField_encodeXyn (op : Nat) (x y : RegIdx) (low : Fin 16) : nField (encodeXyn op x y low) = low :=
  Fin.ext (lowNibble_encodeXyn op x y low)

/-! ## The round trip, and the row -/

/-- The word of an instruction decodes to it: the fields choose the decoder's branch, and the operands are
read back (R91, R95). -/
theorem decodeWord_encode (i : Instr) : decodeWord (encode i) = some i := by
  cases i
  case cls | ret => rfl
  case jp | call | ldI | jpV0 =>
    simp only [encode, decodeWord, opField_encodeNnn, nnnField_encodeNnn, Nat.reduceLT]
  case seImm | sneImm | ldImm | addImm | rnd =>
    simp only [encode, decodeWord, opField_encodeXnn, xField_encodeXnn, nnField_encodeXnn, Nat.reduceLT]
  case drw =>
    simp only [encode, decodeWord, opField_encodeXyn, xField_encodeXyn, yField_encodeXyn, nField_encodeXyn,
      Nat.reduceLT]
  case seReg | sneReg | ldReg | orReg | andReg | xorReg | addReg | sub | shr | subn | shl =>
    simp only [encode, decodeWord, decodeGroup5, decodeGroup8, decodeGroup9, opField_encodeXyn,
      lowNibble_encodeXyn, xField_encodeXyn, yField_encodeXyn, Nat.reduceLT]
    rfl
  case skp | sknp | ldVxDt | ldVxK | ldDtVx | ldStVx | addI | ldF | ldB | ldMemVx | ldVxMem =>
    simp only [encode, decodeWord, decodeGroupE, decodeGroupF, opField_encodeXnn, lowByte_encodeXnn,
      xField_encodeXnn, Nat.reduceLT]
    rfl

theorem row_covers_encode (i : Instr) : i.row.covers (encode i) = true :=
  row_covers_of_decodeWord (decodeWord_encode i)

end Sys2Proof

namespace Sys2Proof.Machine

/-- Every instruction stands on its own row of the opcode map (R92). -/
theorem onRow_row (i : Instr) : OnRow i i.row.pattern i.row.mask :=
  ⟨beq_iff_eq.1 (row_covers_encode i), decodeWord_encode i⟩

end Sys2Proof.Machine
end

section
/-! PROOF. The jumps (R131, R137): both targets fit in PC, so no sum is reduced. -/

namespace Sys2Proof.Machine

theorem absoluteAddress_toNat (nnn : BitVec 12) : (absoluteAddress nnn).toNat = nnn.toNat :=
  BitVec.toNat_setWidth_of_le (by decide)

/-- The largest sum is 4095 + 255, below 65536. -/
theorem computedAddress_toNat (nnn : BitVec 12) (v0 : Byte) :
    (computedAddress nnn v0).toNat = nnn.toNat + v0.toNat := by
  have hnnn : (nnn.setWidth 16).toNat = nnn.toNat := BitVec.toNat_setWidth_of_le (by decide)
  have hv0 : (v0.setWidth 16).toNat = v0.toNat := BitVec.toNat_setWidth_of_le (by decide)
  have hfits : nnn.toNat + v0.toNat < 2 ^ 16 := by
    have := nnn.isLt
    have := v0.isLt
    omega
  rw [computedAddress, BitVec.toNat_add, hnnn, hv0, Nat.mod_eq_of_lt hfits]

theorem exec_jp (nnn : BitVec 12) (s : State) :
    exec (.jp nnn) s = .next { s with pc := absoluteAddress nnn } := rfl

theorem exec_jpV0 (nnn : BitVec 12) (s : State) :
    exec (.jpV0 nnn) s = .next { s with pc := computedAddress nnn (s.reg 0) } := rfl

/-- Settles O11: each jump writes its target to PC, and the target is the number that the rule names. -/
theorem jumpsSetPc : Obligations.JumpsSetPc := fun nnn s =>
  ⟨⟨_, exec_jp nnn s, rfl, absoluteAddress_toNat nnn⟩,
    ⟨_, exec_jpV0 nnn s, rfl, computedAddress_toNat nnn (s.reg 0)⟩,
    onRow_row (.jp nnn), onRow_row (.jpV0 nnn)⟩

end Sys2Proof.Machine
end

section
/-! PROOF. The conditional skips on registers (R133 to R136): each is one skip on a Boolean test. -/

namespace Sys2Proof.Machine

theorem exec_seImm (x : RegIdx) (nn : Byte) (s : State) :
    exec (.seImm x nn) s = .next (s.skipIf (s.reg x == nn)) := rfl

theorem exec_sneImm (x : RegIdx) (nn : Byte) (s : State) :
    exec (.sneImm x nn) s = .next (s.skipIf (s.reg x != nn)) := rfl

theorem exec_seReg (x y : RegIdx) (s : State) :
    exec (.seReg x y) s = .next (s.skipIf (s.reg x == s.reg y)) := rfl

theorem exec_sneReg (x y : RegIdx) (s : State) :
    exec (.sneReg x y) s = .next (s.skipIf (s.reg x != s.reg y)) := rfl

/-- An instruction that is a skip on the test `c` completes, changes nothing but PC, adds 2 to PC where `c`
holds and keeps PC where it does not (R138). -/
theorem exec_skips {i : Instr} {s : State} {c : Bool} {P Q : Prop} (h : exec i s = .next (s.skipIf c))
    (hskip : P → c = true) (hstay : Q → c = false) :
    ∃ t, exec i s = .next t ∧ t = { s with pc := t.pc } ∧
      (P → t.pc = s.pc + 2) ∧ (Q → t.pc = s.pc) := by
  refine ⟨_, h, skipIf_onlyPc s c, fun hP => ?_, fun hQ => ?_⟩
  · rw [skipIf_pc, if_pos (hskip hP)]
  · rw [skipIf_pc, hstay hQ, if_neg Bool.false_ne_true]

/-- Settles O16: the test of 3XNN is that V[X] is NN, the test of 4XNN that it is not. -/
theorem skipsOnImmediate : Obligations.SkipsOnImmediate := fun x nn s =>
  ⟨exec_skips (exec_seImm x nn s) beq_iff_eq.2 beq_false_of_ne,
    exec_skips (exec_sneImm x nn s) bne_iff_ne.2 bne_eq_false_iff_eq.2,
    onRow_row (.seImm x nn), onRow_row (.sneImm x nn)⟩

/-- Settles O17: the test of 5XY0 is that V[X] is V[Y], the test of 9XY0 that it is not. -/
theorem skipsOnRegisters : Obligations.SkipsOnRegisters := fun x y s =>
  ⟨exec_skips (exec_seReg x y s) beq_iff_eq.2 beq_false_of_ne,
    exec_skips (exec_sneReg x y s) bne_iff_ne.2 bne_eq_false_iff_eq.2,
    onRow_row (.seReg x y), onRow_row (.sneReg x y)⟩

end Sys2Proof.Machine
end

section
/-! PROOF. ADD with its carry (8XY4, R158): the sum is written first and the carry last, so VF holds the carry
for every X, F included. -/

namespace Sys2Proof.Machine

/-! ## The result, then the flag -/

@[simp] theorem reg_resultThenFlag_regF (x : RegIdx) (result flag : Byte) (s : State) :
    (resultThenFlag x result flag s).reg regF = flag :=
  reg_setReg_self _ regF flag

@[simp] theorem reg_resultThenFlag_of_ne {x : RegIdx} (hx : x ≠ regF) (result flag : Byte) (s : State) :
    (resultThenFlag x result flag s).reg x = result :=
  (reg_setReg_ne _ flag hx).trans (reg_setReg_self s x result)

theorem carryFlag_eq_one {a b : Byte} (h : a.toNat + b.toNat > 255) : carryFlag a b = 1 := by
  rw [carryFlag, flagOf, decide_eq_true h, if_pos rfl]

theorem carryFlag_eq_zero {a b : Byte} (h : ¬ a.toNat + b.toNat > 255) : carryFlag a b = 0 := by
  rw [carryFlag, flagOf, decide_eq_false h, if_neg Bool.false_ne_true]

/-! ## The instruction -/

theorem exec_addReg (x y : RegIdx) (s : State) :
    exec (.addReg x y) s =
      .next (resultThenFlag x (s.reg x + s.reg y) (carryFlag (s.reg x) (s.reg y)) s) := rfl

/-- Settles O20: V[X] keeps the sum unless X = F, and VF holds the carry, which is written after it. -/
theorem addSetsCarry : Obligations.AddSetsCarry := by
  intro x y s
  refine ⟨_, exec_addReg x y s, resultThenFlag_onlyRegs x _ _ s, fun hx => ?sum, fun hcarry => ?carry,
    fun hno => ?noCarry, onRow_row (.addReg x y)⟩
  case sum => rw [reg_resultThenFlag_of_ne hx, BitVec.toNat_add]
  case carry => rw [reg_resultThenFlag_regF, carryFlag_eq_one hcarry]
  case noCarry => rw [reg_resultThenFlag_regF, carryFlag_eq_zero hno]

end Sys2Proof.Machine
end

section
/-! PROOF. The instructions without a flag that write one register from registers or an immediate (R152 to R157):
each is one register write, and the value written is the one that its rule names. -/

namespace Sys2Proof.Machine

theorem exec_ldImm (x : RegIdx) (nn : Byte) (s : State) :
    exec (.ldImm x nn) s = .next (s.setReg x nn) := rfl

theorem exec_addImm (x : RegIdx) (nn : Byte) (s : State) :
    exec (.addImm x nn) s = .next (s.setReg x (s.reg x + nn)) := rfl

theorem exec_ldReg (x y : RegIdx) (s : State) :
    exec (.ldReg x y) s = .next (s.setReg x (s.reg y)) := rfl

theorem exec_orReg (x y : RegIdx) (s : State) :
    exec (.orReg x y) s = .next (s.setReg x (s.reg x ||| s.reg y)) := rfl

theorem exec_andReg (x y : RegIdx) (s : State) :
    exec (.andReg x y) s = .next (s.setReg x (s.reg x &&& s.reg y)) := rfl

theorem exec_xorReg (x y : RegIdx) (s : State) :
    exec (.xorReg x y) s = .next (s.setReg x (s.reg x ^^^ s.reg y)) := rfl

/-- An instruction that is a write of `b` to V[X] completes and changes nothing but V[X]; what holds of a state
with `b` in V[X] holds of the next one. -/
theorem exec_writesReg {i : Instr} {s : State} {x : RegIdx} {b : Byte} {P : State → Prop}
    (h : exec i s = .next (s.setReg x b)) (hb : ∀ t : State, t.reg x = b → P t) :
    ∃ t, exec i s = .next t ∧ s.OnlyRegs t [x] ∧ P t :=
  ⟨_, h, setReg_onlyRegs s x b, hb _ (reg_setReg_self s x b)⟩

/-- Settles O18: the values are NN, the sum modulo 256 and V[Y]. -/
theorem loadsMovesAndAddImmediate : Obligations.LoadsMovesAndAddImmediate := fun x y nn s =>
  ⟨exec_writesReg (exec_ldImm x nn s) fun _ ht => ht,
    exec_writesReg (exec_addImm x nn s) fun _ ht => by rw [ht, BitVec.toNat_add],
    exec_writesReg (exec_ldReg x y s) fun _ ht => ht,
    onRow_row (.ldImm x nn), onRow_row (.addImm x nn), onRow_row (.ldReg x y)⟩

/-- Settles O19: each operation on bytes acts on each bit alone. -/
theorem logicIsBitwise : Obligations.LogicIsBitwise := fun x y s =>
  ⟨exec_writesReg (exec_orReg x y s) fun _ ht k => by rw [ht, BitVec.getLsbD_or],
    exec_writesReg (exec_andReg x y s) fun _ ht k => by rw [ht, BitVec.getLsbD_and],
    exec_writesReg (exec_xorReg x y s) fun _ ht k => by rw [ht, BitVec.getLsbD_xor],
    onRow_row (.orReg x y), onRow_row (.andReg x y), onRow_row (.xorReg x y)⟩

end Sys2Proof.Machine
end

section
/-! PROOF. The loads of I (R180, R182): both values fit in I, so neither is reduced. -/

namespace Sys2Proof.Machine

/-- The largest address is 255 * 5 = 1275, below 65536 (R182). -/
theorem glyphAddress_toNat (b : Byte) :
    (BitVec.ofNat 16 (b.toNat * Config.glyphBytes)).toNat = b.toNat * 5 := by
  have hfits : b.toNat * 5 < 2 ^ 16 := by
    have := b.isLt
    omega
  rw [Config.glyphBytes, BitVec.toNat_ofNat, Nat.mod_eq_of_lt hfits]

theorem exec_ldI (nnn : BitVec 12) (s : State) :
    exec (.ldI nnn) s = .next { s with i := absoluteAddress nnn } := rfl

theorem exec_ldF (x : RegIdx) (s : State) :
    exec (.ldF x) s = .next { s with i := BitVec.ofNat 16 ((s.reg x).toNat * Config.glyphBytes) } := rfl

/-- Settles O25: each instruction writes its value to I, and the value is the number that the rule names. -/
theorem loadsOfIndex : Obligations.LoadsOfIndex := fun nnn x s =>
  ⟨⟨_, exec_ldI nnn s, rfl, absoluteAddress_toNat nnn⟩,
    ⟨_, exec_ldF x s, rfl, glyphAddress_toNat (s.reg x)⟩,
    onRow_row (.ldI nnn), onRow_row (.ldF x)⟩

end Sys2Proof.Machine
end

section
/-! PROOF. The clear (00E0, R201): FB becomes the empty grid whatever it was, so a second clear finds nothing to
change. -/

namespace Sys2Proof.Machine

theorem exec_cls (s : State) : exec .cls s = .next { s with fb := FrameBuffer.empty } := rfl

/-- A clear of a state whose framebuffer is empty already answers that state. -/
theorem exec_cls_of_fb_empty {s : State} (h : s.fb = FrameBuffer.empty) : exec .cls s = .next s := by
  rw [exec_cls, ← h]

/-- Settles O32: the next state holds the empty grid, every cell of which is unset. -/
theorem clearUnsetsEveryCell : Obligations.ClearUnsetsEveryCell := fun s =>
  ⟨⟨_, exec_cls s, rfl, fun c r _ _ => cell_empty c r, exec_cls_of_fb_empty rfl⟩, onRow_row .cls⟩

end Sys2Proof.Machine
end

section
/-! PROOF. FX07 reads DT (R230): in a Step the instruction runs after the timer phase, so it sees the counter that
phase left. -/

namespace Sys2Proof.Machine

theorem exec_ldVxDt (x : RegIdx) (s : State) : exec (.ldVxDt x) s = .next (s.setReg x s.dt) := rfl

/-- A DT that the timer phase changed is one less than it was: the phase ticks only a DT above 0 (R113). -/
theorem timerPhase_dt_of_ne {now ticks : Nat} {s : State} (h : (timerPhase now ticks s).dt ≠ s.dt) :
    (timerPhase now ticks s).dt.toNat + 1 = s.dt.toNat := by
  rcases timerPhase_cases now ticks s with ⟨hpos, -, hticks⟩ | ⟨-, hstays⟩
  · rw [hticks]
    bv_omega
  · exact absurd (congrArg State.dt hstays) h

/-- Phase 4 on a word that decodes goes on to the instruction (R111). -/
theorem decodeAndExecute_of_some {w : Word} {i : Instr} (h : decodeWord w = some i) (s : State) :
    decodeAndExecute w s = exec i s := by
  rw [decodeAndExecute, h]

/-- Settles O36: the Step executes FX07 on the state that its timer phase left, and the phase sees the same DT
and TICK_REF at the start of the Step as in the block's state. -/
theorem readsDelayTimer : Obligations.ReadsDelayTimer := by
  intro x s
  refine ⟨exec_writesReg (exec_ldVxDt x s) fun _ ht => ht, ?_, onRow_row (.ldVxDt x)⟩
  intro now ticks rest hdue hrun hpc hdecode
  have hdt : (timerPhase now ticks (s.stepStart now rest)).dt = (timerPhase now ticks s).dt :=
    timerPhase_dt_congr now ticks rfl rfl
  have hstep := (step_due_fetches hdue hrun hpc).trans (decodeAndExecute_of_some hdecode _)
  refine ⟨_, hstep, (reg_setReg_self _ x _).trans hdt, hdt, fun hne => ?_⟩
  rw [reg_setReg_self, advance_dt, hdt]
  exact timerPhase_dt_of_ne (hdt ▸ hne)

end Sys2Proof.Machine
end

section
/-! PROOF. The key events (R250 to R252): each sets or clears one bit of KEYS, and a KeyDown that comes while the
block waits injects its key as well. -/

namespace Sys2Proof.Machine

/-! ## One bit of KEYS -/

theorem getLsbD_setKey (keys : Word) {k j : Nat} (hk : k ≤ 15) :
    (keys ||| BitVec.twoPow 16 k).getLsbD j = (decide (j = k) || keys.getLsbD j) := by
  rw [BitVec.getLsbD_or, BitVec.getLsbD_twoPow, Bool.or_comm]
  simp [Nat.lt_succ_of_le hk, eq_comm]

theorem getLsbD_clearKey (keys : Word) {k j : Nat} (hk : k ≤ 15) (hj : j < 16) :
    (keys &&& ~~~BitVec.twoPow 16 k).getLsbD j = (!decide (j = k) && keys.getLsbD j) := by
  rw [BitVec.getLsbD_and, BitVec.getLsbD_not, BitVec.getLsbD_twoPow, Bool.and_comm]
  simp [hj, Nat.lt_succ_of_le hk, eq_comm]

/-! ## The injection (R252) -/

/-- The injected key fits in a register, so it is not reduced. -/
theorem reg_inject_self (s : State) {k : Nat} (hk : k ≤ 15) : ((s.inject k).reg s.waitX).toNat = k := by
  have hfits : k < 2 ^ 8 := by omega
  have hreg : (s.inject k).reg s.waitX = BitVec.ofNat 8 k := reg_setReg_self s s.waitX _
  rw [hreg, BitVec.toNat_ofNat, Nat.mod_eq_of_lt hfits]

theorem reg_inject_ne (s : State) (k : Nat) {y : RegIdx} (h : y ≠ s.waitX) : (s.inject k).reg y = s.reg y :=
  reg_setReg_ne s _ h

/-! ## The key events, one equation per case -/

theorem RunState.running_or_waiting (r : RunState) : r = .running ∨ r = .waitingForKey := by
  cases r
  · exact .inl rfl
  · exact .inr rfl

theorem keyDown_running {k : Nat} {s : State} (hk : k ≤ 15) (h : s.runState = .running) :
    keyDown k s = .next { s with keys := s.keys ||| BitVec.twoPow 16 k } := by
  rw [keyDown, if_neg hk.not_gt, h]

theorem keyDown_waiting {k : Nat} {s : State} (hk : k ≤ 15) (h : s.runState = .waitingForKey) :
    keyDown k s = .next (State.inject { s with keys := s.keys ||| BitVec.twoPow 16 k } k) := by
  rw [keyDown, if_neg hk.not_gt, h]

theorem keyUp_of_le {k : Nat} (hk : k ≤ 15) (s : State) :
    keyUp k s = .next { s with keys := s.keys &&& ~~~BitVec.twoPow 16 k } :=
  if_neg hk.not_gt

/-- Settles O40: while running the event only sets the bit; while waiting it also injects the key. -/
theorem keyDownSetsBitAndInjects : Obligations.KeyDownSetsBitAndInjects := by
  intro s k rest hpending hk
  have hstep := step_pending s (.keyDown k) rest hpending
  have hbit : ∀ j, j < 16 → (s.keys ||| BitVec.twoPow 16 k).getLsbD j = (decide (j = k) || s.keys.getLsbD j) :=
    fun _ _ => getLsbD_setKey s.keys hk
  rcases s.runState.running_or_waiting with hrun | hwait
  · refine ⟨_, hstep.trans (keyDown_running hk hrun), hbit, fun _ => rfl, fun hwait => ?_⟩
    cases hrun.symm.trans hwait
  · refine ⟨_, hstep.trans (keyDown_waiting hk hwait), hbit, fun hrun => ?_, fun _ => ?_⟩
    · cases hrun.symm.trans hwait
    · exact ⟨rfl, reg_inject_self _ hk, fun _ => reg_inject_ne _ k⟩

/-- Settles O41: the event clears the bit without looking at STATE. -/
theorem keyUpClearsBit : Obligations.KeyUpClearsBit := by
  intro s k rest hpending hk
  have hstep := step_pending s (.keyUp k) rest hpending
  exact ⟨_, hstep.trans (keyUp_of_le hk _), rfl, fun _ => getLsbD_clearKey s.keys hk⟩

end Sys2Proof.Machine
end

section
/-! PROOF. The round trips of the encoding (R63, R91): the two bytes of a word make it again, and the fields that
the decoder reads are all the bits that the encoder lays out. -/

namespace Sys2Proof

/-! ## Bytes and words -/

/-- The high and the low byte of a word, put together, are the word (R63). -/
theorem wordOfBytes_bytes (w : Word) :
    wordOfBytes (BitVec.ofNat 8 (bitField w 8 8)) (BitVec.ofNat 8 (bitField w 0 8)) = w := by
  have := w.isLt
  apply BitVec.eq_of_toNat_eq
  simp only [wordOfBytes, bitField, BitVec.toNat_ofNat]
  omega

/-- Bytes that begin with those of a word that decodes give the instruction and the bytes behind (R90). -/
theorem decode_bytesOfWord_append {w : Word} {i : Instr} (h : decodeWord w = some i) (rest : List Byte) :
    decode (bytesOfWord w ++ rest) = .ok (i, rest) := by
  simp only [bytesOfWord, List.cons_append, List.nil_append, decode, wordOfBytes_bytes, h]

/-- Settles O2: the word of an instruction decodes to it, and its bytes are read as that word. -/
theorem decodeOfEncode : Obligations.DecodeOfEncode := fun i rest _ =>
  ⟨decode_bytesOfWord_append (decodeWord_encode i) rest, decodeWord_encode i⟩

/-! ## A word made again from its fields -/

theorem encodeNnn_eq {w : Word} {op : Nat} {nnn : BitVec 12} (hop : opField w = op)
    (hnnn : bitField w 0 12 = nnn.toNat) : encodeNnn op nnn = w := by
  have := w.isLt
  apply BitVec.eq_of_toNat_eq
  simp only [opField, bitField] at hop hnnn
  simp only [encodeNnn, BitVec.toNat_ofNat]
  omega

theorem encodeXnn_eq {w : Word} {op : Nat} {nn : Byte} (hop : opField w = op)
    (hnn : bitField w 0 8 = nn.toNat) : encodeXnn op (xField w) nn = w := by
  have := w.isLt
  apply BitVec.eq_of_toNat_eq
  simp only [opField, bitField] at hop hnn
  simp only [encodeXnn, xField, bitField, BitVec.toNat_ofNat]
  omega

theorem encodeXyn_eq {w : Word} {op : Nat} {n : Fin 16} (hop : opField w = op)
    (hn : bitField w 0 4 = n.val) : encodeXyn op (xField w) (yField w) n = w := by
  have := w.isLt
  apply BitVec.eq_of_toNat_eq
  simp only [opField, bitField] at hop hn
  simp only [encodeXyn, xField, yField, bitField, BitVec.toNat_ofNat]
  omega

theorem nnnField_toNat (w : Word) : (nnnField w).toNat = bitField w 0 12 := by
  simp [nnnField, bitField]

theorem nnField_toNat (w : Word) : (nnField w).toNat = bitField w 0 8 := by
  simp [nnField, bitField]

/-! ## By the decoder's groups (R95) -/

theorem encode_of_decodeGroup0 {w : Word} {i : Instr} (hop : opField w = 0x0) (h : decodeGroup0 w = some i) :
    encode i = w := by
  unfold decodeGroup0 at h
  split at h <;> cases h
  case h_1 hsel => exact encodeNnn_eq (nnn := 0x0E0) hop hsel
  case h_2 hsel => exact encodeNnn_eq (nnn := 0x0EE) hop hsel

theorem encode_of_decodeGroup5 {w : Word} {i : Instr} (hop : opField w = 0x5) (h : decodeGroup5 w = some i) :
    encode i = w := by
  unfold decodeGroup5 at h
  split at h <;> cases h
  exact encodeXyn_eq hop ‹_›

theorem encode_of_decodeGroup8 {w : Word} {i : Instr} (hop : opField w = 0x8) (h : decodeGroup8 w = some i) :
    encode i = w := by
  unfold decodeGroup8 at h
  split at h <;> cases h
  all_goals exact encodeXyn_eq hop ‹_›

theorem encode_of_decodeGroup9 {w : Word} {i : Instr} (hop : opField w = 0x9) (h : decodeGroup9 w = some i) :
    encode i = w := by
  unfold decodeGroup9 at h
  split at h <;> cases h
  exact encodeXyn_eq hop ‹_›

theorem encode_of_decodeGroupE {w : Word} {i : Instr} (hop : opField w = 0xE) (h : decodeGroupE w = some i) :
    encode i = w := by
  unfold decodeGroupE at h
  split at h <;> cases h
  all_goals exact encodeXnn_eq hop ‹_›

theorem encode_of_decodeGroupF {w : Word} {i : Instr} (hop : opField w = 0xF) (h : decodeGroupF w = some i) :
    encode i = w := by
  unfold decodeGroupF at h
  split at h <;> cases h
  all_goals exact encodeXnn_eq hop ‹_›

/-- Settles O3: by the top nibble and then by the group's selector; in each branch the fields read are the
whole word. -/
theorem encodeOfDecode : Obligations.EncodeOfDecode := by
  intro w i h
  unfold decodeWord at h
  split at h
  case h_1 hop => exact encode_of_decodeGroup0 hop h
  case h_6 hop => exact encode_of_decodeGroup5 hop h
  case h_9 hop => exact encode_of_decodeGroup8 hop h
  case h_10 hop => exact encode_of_decodeGroup9 hop h
  case h_15 hop => exact encode_of_decodeGroupE hop h
  case h_16 hop => exact encode_of_decodeGroupF hop h
  case h_2 hop | h_3 hop | h_11 hop | h_12 hop => cases h; exact encodeNnn_eq hop (nnnField_toNat w).symm
  case h_4 hop | h_5 hop | h_7 hop | h_8 hop | h_13 hop =>
    cases h; exact encodeXnn_eq hop (nnField_toNat w).symm
  case h_14 hop => cases h; exact encodeXyn_eq hop rfl
  case h_17 => cases h

/-- Settles O1: nine closed words, each decoded by computation. -/
theorem sampleWordsDecode : Obligations.SampleWordsDecode := by
  unfold Obligations.SampleWordsDecode
  decide

end Sys2Proof
end

section
/-! PROOF. Return and call (R130 to R132): one equation for each range of SP. -/

namespace Sys2Proof.Machine

theorem exec_ret_of_sp_zero {s : State} (h : s.sp = 0) :
    exec .ret s = raise (.stackUnderflow (encode .ret)) s := by
  rw [exec, execRet, if_pos h]

theorem exec_ret_of_pos {s : State} (hpos : 0 < s.sp) (hle : s.sp ≤ 16) :
    exec .ret s = .next { s with sp := s.sp - 1, pc := s.stack[s.sp - 1] } := by
  rw [exec, execRet, if_neg hpos.ne', dif_pos ⟨hle, hpos⟩]

theorem exec_ret_of_gt {s : State} (h : 16 < s.sp) :
    exec .ret s = .fault (.stackPointerOutOfRange s.sp) := by
  rw [exec, execRet, if_neg (by omega), dif_neg (by omega)]

theorem exec_call_of_lt (nnn : BitVec 12) {s : State} (h : s.sp < 16) :
    exec (.call nnn) s =
      .next { s with stack := s.stack.set s.sp s.pc, sp := s.sp + 1, pc := absoluteAddress nnn } := by
  rw [exec, execCall, if_neg h.ne, dif_pos h]

theorem exec_call_of_full (nnn : BitVec 12) {s : State} (h : s.sp = 16) :
    exec (.call nnn) s = raise (.stackOverflow (encode (.call nnn))) s := by
  rw [exec, execCall, if_pos h]

theorem exec_call_of_gt (nnn : BitVec 12) {s : State} (h : 16 < s.sp) :
    exec (.call nnn) s = .fault (.stackPointerOutOfRange s.sp) := by
  rw [exec, execCall, if_neg h.ne', dif_neg h.le.not_gt]

/-- Settles O12: the entry written is the one at SP, and the target fits in PC. -/
theorem callPushesReturnAddress : Obligations.CallPushesReturnAddress := by
  intro nnn s hsp
  refine ⟨_, exec_call_of_lt nnn hsp, rfl, absoluteAddress_toNat nnn, rfl, ?_, fun k hk => ?_⟩
  · exact Vector.getElem?_set_self hsp
  · exact Vector.getElem?_set_ne hsp hk.symm

/-- Settles O13: the entry read is the one below SP. -/
theorem retPopsReturnAddress : Obligations.RetPopsReturnAddress := fun _ hpos hle =>
  ⟨_, exec_ret_of_pos hpos hle, rfl, Nat.sub_add_cancel hpos, Vector.getElem?_eq_getElem _⟩

/-- Settles O14: the return reads the entry that the call wrote, whatever PC it comes from. -/
theorem callThenRetReturns : Obligations.CallThenRetReturns := by
  intro nnn s p hsp
  refine ⟨_, _, exec_call_of_lt nnn hsp, exec_ret_of_pos (Nat.succ_pos s.sp) (Nat.succ_le_of_lt hsp), ?_,
    fun k hk => ?_⟩
  · simp
  · exact Vector.getElem?_set_ne hsp hk.symm

end Sys2Proof.Machine
end

section
/-! PROOF. How an instruction that answers a next state ends (R20, R116, R271): it completes, and only the elements
of its frame differ, or it returns one of its own errors and nothing else is done. -/

namespace Sys2Proof.Machine

/-- `t` is `s` in every element of the state but those that the instruction writes (R20). -/
def Frame : Instr → State → State → Prop
  | .cls, s, t => t = { s with fb := t.fb }
  | .ret, s, t => t = { s with pc := t.pc, sp := t.sp }
  | .call _, s, t => t = { s with pc := t.pc, sp := t.sp, stack := t.stack }
  | .jp _, s, t | .jpV0 _, s, t | .seImm _ _, s, t | .sneImm _ _, s, t | .seReg _ _, s, t | .sneReg _ _, s, t
  | .skp _, s, t | .sknp _, s, t => t = { s with pc := t.pc }
  | .ldImm _ _, s, t | .addImm _ _, s, t | .ldReg _ _, s, t | .orReg _ _, s, t | .andReg _ _, s, t
  | .xorReg _ _, s, t | .addReg _ _, s, t | .sub _ _, s, t | .shr _ _, s, t | .subn _ _, s, t | .shl _ _, s, t
  | .ldVxDt _, s, t | .ldVxMem _, s, t => t = { s with v := t.v }
  | .rnd _ _, s, t => t = { s with v := t.v, draws := t.draws }
  | .drw _ _ _, s, t => t = { s with v := t.v, fb := t.fb }
  | .ldI _, s, t | .addI _, s, t | .ldF _, s, t => t = { s with i := t.i }
  | .ldB _, s, t | .ldMemVx _, s, t => t = { s with mem := t.mem }
  | .ldDtVx _, s, t => t = { s with dt := t.dt }
  | .ldStVx _, s, t => t = { s with st := t.st }
  | .ldVxK _, s, t => t = { s with pc := t.pc, runState := t.runState, waitX := t.waitX }

/-- The error that an instruction may return (R271), with its payload. -/
def MayRaise : Instr → State → CoreError → Prop
  | .ret, _, e => e = .stackUnderflow (encode .ret)
  | .call nnn, _, e => e = .stackOverflow (encode (.call nnn))
  | .drw _ _ n, s, e => n.val ≠ 0 ∧ e = .addressOutOfRange s.i
  | .ldB _, s, e | .ldMemVx _, s, e | .ldVxMem _, s, e => e = .addressOutOfRange s.i
  | _, _, _ => False

/-! ## The operations that may return an error -/

theorem raised_of_raise {e : CoreError} {s t : State} (h : raise e s = .next t) : s.Raised t e := by
  cases h; rfl

theorem storeBlock_next {bs : List Byte} {s t : State} (h : storeBlock bs s = .next t) :
    t = { s with mem := t.mem } ∨ s.Raised t (.addressOutOfRange s.i) := by
  rcases storeBlock_cases bs s with ⟨hin, -⟩ | hout
  · cases hin.symm.trans h; exact .inl rfl
  · exact .inr (raised_of_raise (hout.symm.trans h))

theorem withBlock_next_cases {n : Nat} {s t : State} {use : List Byte → State}
    (h : withBlock n s (fun bytes => .next (use bytes)) = .next t) :
    (∃ bytes, t = use bytes) ∨ n ≠ 0 ∧ s.Raised t (.addressOutOfRange s.i) := by
  by_cases hin : n = 0 ∨ s.i.toNat + n ≤ 4096
  · rw [withBlock_in n s _ hin] at h
    cases h; exact .inl ⟨_, rfl⟩
  · rw [withBlock_out n s _ hin] at h
    exact .inr ⟨fun hn => hin (.inl hn), raised_of_raise h⟩

theorem exec_skp (x : RegIdx) (s : State) :
    exec (.skp x) s = .next (s.skipIf (decide ((s.reg x).toNat ≤ 15) && s.keys.getLsbD (s.reg x).toNat)) := by
  rw [exec, execSkp, params_keyOorPolicy, keyPressed_default]

theorem exec_sknp (x : RegIdx) (s : State) :
    exec (.sknp x) s =
      .next (s.skipIf (!(decide ((s.reg x).toNat ≤ 15) && s.keys.getLsbD (s.reg x).toNat))) := by
  rw [exec, execSknp, params_keyOorPolicy, keyPressed_default]

/-! ## The two ways an instruction ends -/

/-- What an instruction that answers a next state can do: complete within its frame, or raise its error. -/
theorem exec_next_cases {i : Instr} {s t : State} (h : exec i s = .next t) :
    Frame i s t ∨ ∃ e, MayRaise i s e ∧ s.Raised t e := by
  cases i
  case ret =>
    by_cases h0 : s.sp = 0
    · exact .inr ⟨_, rfl, raised_of_raise ((exec_ret_of_sp_zero h0).symm.trans h)⟩
    by_cases h16 : s.sp ≤ 16
    · cases (exec_ret_of_pos (Nat.pos_of_ne_zero h0) h16).symm.trans h; exact .inl rfl
    · cases (exec_ret_of_gt (not_le.1 h16)).symm.trans h
  case call nnn =>
    rcases lt_trichotomy s.sp 16 with hlt | hfull | hgt
    · cases (exec_call_of_lt nnn hlt).symm.trans h; exact .inl rfl
    · exact .inr ⟨_, rfl, raised_of_raise ((exec_call_of_full nnn hfull).symm.trans h)⟩
    · cases (exec_call_of_gt nnn hgt).symm.trans h
  case drw x y n =>
    rcases withBlock_next_cases h with ⟨bytes, rfl⟩ | ⟨hn, hraised⟩
    · exact .inl rfl
    · exact .inr ⟨_, ⟨hn, rfl⟩, hraised⟩
  case ldVxMem x =>
    rcases withBlock_next_cases h with ⟨bytes, rfl⟩ | ⟨-, hraised⟩
    · exact .inl rfl
    · exact .inr ⟨_, rfl, hraised⟩
  case ldB | ldMemVx => exact (storeBlock_next h).imp_right fun hraised => ⟨_, rfl, hraised⟩
  case seImm | sneImm | seReg | sneReg => cases h; exact .inl (skipIf_onlyPc s _)
  case skp x => cases (exec_skp x s).symm.trans h; exact .inl (skipIf_onlyPc s _)
  case sknp x => cases (exec_sknp x s).symm.trans h; exact .inl (skipIf_onlyPc s _)
  all_goals cases h; exact .inl rfl

/-! ## What a frame leaves unchanged, element by element (R20) -/

/-- No frame holds an element of the host's or of the model's record of the host. -/
theorem Frame.host {i : Instr} {s t : State} (h : Frame i s t) :
    t.keys = s.keys ∧ t.tickRef = s.tickRef ∧ t.hostNow = s.hostNow ∧ t.pending = s.pending ∧
      t.hostCalls = s.hostCalls ∧ t.errors = s.errors ∧ t.reply = s.reply := by
  cases i
  all_goals rw [h]; exact ⟨rfl, rfl, rfl, rfl, rfl, rfl, rfl⟩

theorem Frame.mem_writer {i : Instr} {s t : State} (h : Frame i s t) (hne : t.mem ≠ s.mem) :
    ∃ x, i = .ldB x ∨ i = .ldMemVx x := by
  cases i
  case ldB x | ldMemVx x => exact ⟨x, by simp⟩
  all_goals exact absurd (congrArg State.mem h) hne

theorem Frame.fb_writer {i : Instr} {s t : State} (h : Frame i s t) (hne : t.fb ≠ s.fb) :
    i = .cls ∨ ∃ x y n, i = .drw x y n := by
  cases i
  case cls => exact .inl rfl
  case drw x y n => exact .inr ⟨x, y, n, rfl⟩
  all_goals exact absurd (congrArg State.fb h) hne

theorem Frame.pc_writer {i : Instr} {s t : State} (h : Frame i s t) (hne : t.pc ≠ s.pc) :
    i = .ret ∨ (∃ nnn, i = .jp nnn ∨ i = .call nnn ∨ i = .jpV0 nnn) ∨
      (∃ x nn, i = .seImm x nn ∨ i = .sneImm x nn) ∨ (∃ x y, i = .seReg x y ∨ i = .sneReg x y) ∨
      ∃ x, i = .skp x ∨ i = .sknp x ∨ i = .ldVxK x := by
  cases i
  case ret => exact .inl rfl
  case jp nnn | call nnn | jpV0 nnn => exact .inr (.inl ⟨nnn, by simp⟩)
  case seImm x nn | sneImm x nn => exact .inr (.inr (.inl ⟨x, nn, by simp⟩))
  case seReg x y | sneReg x y => exact .inr (.inr (.inr (.inl ⟨x, y, by simp⟩)))
  case skp x | sknp x | ldVxK x => exact .inr (.inr (.inr (.inr ⟨x, by simp⟩)))
  all_goals exact absurd (congrArg State.pc h) hne

theorem Frame.i_writer {i : Instr} {s t : State} (h : Frame i s t) (hne : t.i ≠ s.i) :
    (∃ nnn, i = .ldI nnn) ∨ ∃ x, i = .addI x ∨ i = .ldF x := by
  cases i
  case ldI nnn => exact .inl ⟨nnn, rfl⟩
  case addI x | ldF x => exact .inr ⟨x, by simp⟩
  all_goals exact absurd (congrArg State.i h) hne

theorem Frame.stack_writer {i : Instr} {s t : State} (h : Frame i s t) (hne : t.stack ≠ s.stack) :
    ∃ nnn, i = .call nnn := by
  cases i
  case call nnn => exact ⟨nnn, rfl⟩
  all_goals exact absurd (congrArg State.stack h) hne

theorem Frame.sp_writer {i : Instr} {s t : State} (h : Frame i s t) (hne : t.sp ≠ s.sp) :
    i = .ret ∨ ∃ nnn, i = .call nnn := by
  cases i
  case ret => exact .inl rfl
  case call nnn => exact .inr ⟨nnn, rfl⟩
  all_goals exact absurd (congrArg State.sp h) hne

theorem Frame.dt_writer {i : Instr} {s t : State} (h : Frame i s t) (hne : t.dt ≠ s.dt) :
    ∃ x, i = .ldDtVx x := by
  cases i
  case ldDtVx x => exact ⟨x, rfl⟩
  all_goals exact absurd (congrArg State.dt h) hne

theorem Frame.st_writer {i : Instr} {s t : State} (h : Frame i s t) (hne : t.st ≠ s.st) :
    ∃ x, i = .ldStVx x := by
  cases i
  case ldStVx x => exact ⟨x, rfl⟩
  all_goals exact absurd (congrArg State.st h) hne

theorem Frame.runState_writer {i : Instr} {s t : State} (h : Frame i s t) (hne : t.runState ≠ s.runState) :
    ∃ x, i = .ldVxK x := by
  cases i
  case ldVxK x => exact ⟨x, rfl⟩
  all_goals exact absurd (congrArg State.runState h) hne

theorem Frame.waitX_writer {i : Instr} {s t : State} (h : Frame i s t) (hne : t.waitX ≠ s.waitX) :
    ∃ x, i = .ldVxK x := by
  cases i
  case ldVxK x => exact ⟨x, rfl⟩
  all_goals exact absurd (congrArg State.waitX h) hne

theorem Frame.draws_writer {i : Instr} {s t : State} (h : Frame i s t) (hne : t.draws ≠ s.draws) :
    ∃ x nn, i = .rnd x nn := by
  cases i
  case rnd x nn => exact ⟨x, nn, rfl⟩
  all_goals exact absurd (congrArg State.draws h) hne

end Sys2Proof.Machine
end

section
/-! PROOF. Who writes what (R20, R26) and how an instruction fails (R116, R271), from the two ways in which an
instruction ends. -/

namespace Sys2Proof.Machine

/-- A register that changed is a destination of the instruction (R20, R22, R23). -/
theorem exec_reg_writer {i : Instr} {s t : State} (h : exec i s = .next t) {k : RegIdx}
    (hne : t.reg k ≠ s.reg k) :
    (∃ nn, i = .ldImm k nn ∨ i = .addImm k nn ∨ i = .rnd k nn) ∨
    (∃ y, i = .ldReg k y ∨ i = .orReg k y ∨ i = .andReg k y ∨ i = .xorReg k y) ∨
    (∃ x y, (k = x ∨ k = regF) ∧
      (i = .addReg x y ∨ i = .sub x y ∨ i = .shr x y ∨ i = .subn x y ∨ i = .shl x y)) ∨
    (k = regF ∧ ∃ x y n, i = .drw x y n) ∨
    i = .ldVxDt k ∨ ∃ x, k.val ≤ x.val ∧ i = .ldVxMem x := by
  have hk : k ∈ i.destRegs := by
    by_contra hk
    exact hne (exec_keeps_reg h hk)
  cases i
  case ldImm x nn | addImm x nn | rnd x nn =>
    obtain rfl := List.mem_singleton.1 hk
    exact .inl ⟨nn, by simp⟩
  case ldReg x y | orReg x y | andReg x y | xorReg x y =>
    obtain rfl := List.mem_singleton.1 hk
    exact .inr (.inl ⟨y, by simp⟩)
  case addReg x y | sub x y | shr x y | subn x y | shl x y =>
    have hxF : k = x ∨ k = regF := by simpa [Instr.destRegs] using hk
    exact .inr (.inr (.inl ⟨x, y, hxF, by simp⟩))
  case drw x y n => exact .inr (.inr (.inr (.inl ⟨List.mem_singleton.1 hk, x, y, n, rfl⟩)))
  case ldVxDt x =>
    obtain rfl := List.mem_singleton.1 hk
    exact .inr (.inr (.inr (.inr (.inl rfl))))
  case ldVxMem x =>
    exact .inr (.inr (.inr (.inr (.inr ⟨x, (mem_destRegs_ldVxMem x k).1 hk, rfl⟩))))
  all_goals exact absurd hk List.not_mem_nil

/-- No instruction changes an element of the host's (R39, R38; log 2 to 4). -/
theorem exec_host {i : Instr} {s t : State} (h : exec i s = .next t) :
    t.keys = s.keys ∧ t.tickRef = s.tickRef ∧ t.hostNow = s.hostNow ∧ t.pending = s.pending ∧
      t.hostCalls = s.hostCalls := by
  rcases exec_next_cases h with hframe | ⟨e, -, rfl⟩
  · obtain ⟨hkeys, htick, hnow, hpending, hcalls, -⟩ := hframe.host
    exact ⟨hkeys, htick, hnow, hpending, hcalls⟩
  · exact ⟨rfl, rfl, rfl, rfl, rfl⟩

/-- Settles O58: an instruction that completes changes only what its frame holds, and one that fails changes
none of these elements. -/
theorem onlyTheWritersWrite : Obligations.OnlyTheWritersWrite := by
  intro i s t h
  have hreg : ∀ k, t.reg k ≠ s.reg k → _ := fun _ => exec_reg_writer h
  have hhost := exec_host h
  rcases exec_next_cases h with hf | ⟨e, -, rfl⟩
  · exact ⟨hf.mem_writer, hf.fb_writer, hreg, hf.pc_writer, hf.i_writer, hf.stack_writer, hf.sp_writer,
      hf.dt_writer, hf.st_writer, fun hne => hne.elim hf.runState_writer hf.waitX_writer, hf.draws_writer,
      hhost⟩
  · exact ⟨absurd rfl, absurd rfl, hreg, absurd rfl, absurd rfl, absurd rfl, absurd rfl, absurd rfl, absurd rfl,
      fun hne => hne.elim (absurd rfl) (absurd rfl), absurd rfl, hhost⟩

/-- The errors that an instruction may return, as R271 lists them. -/
theorem MayRaise.listed {i : Instr} {s : State} {e : CoreError} (h : MayRaise i s e) :
    (i = .ret ∧ e = .stackUnderflow (encode i)) ∨
    (∃ nnn, i = .call nnn ∧ e = .stackOverflow (encode i)) ∨
    (e = .addressOutOfRange s.i ∧
      ((∃ x y n, i = .drw x y n ∧ n.val ≠ 0) ∨ ∃ x, i = .ldB x ∨ i = .ldMemVx x ∨ i = .ldVxMem x)) := by
  cases i
  case ret => exact .inl ⟨rfl, h⟩
  case call nnn => exact .inr (.inl ⟨nnn, rfl, h⟩)
  case drw x y n =>
    obtain ⟨hn, he⟩ := h
    exact .inr (.inr ⟨he, .inl ⟨x, y, n, rfl, hn⟩⟩)
  case ldB x | ldMemVx x | ldVxMem x => exact .inr (.inr ⟨h, .inr ⟨x, by simp⟩⟩)
  all_goals exact h.elim

/-- Settles O57: the record of errors is in no frame, and an instruction that fails does nothing but return its
error. -/
theorem failingInstructionWritesNothing : Obligations.FailingInstructionWritesNothing := by
  intro i s t h
  rcases exec_next_cases h with hframe | ⟨e, hmay, hraised⟩
  · obtain ⟨-, -, -, -, -, herrors, hreply⟩ := hframe.host
    exact .inl ⟨herrors, hreply⟩
  · exact .inr ⟨e, hraised, hmay.listed⟩

/-- Settles O15: outside its range each access returns its error, and SP above 16 stops the machine. -/
theorem instructionErrors : Obligations.InstructionErrors := by
  intro s
  refine ⟨fun h => ⟨_, exec_ret_of_sp_zero h, rfl⟩, fun nnn h => ⟨_, _, exec_call_of_full nnn h, rfl, ?_⟩,
    fun nnn h => ⟨exec_ret_of_gt h, exec_call_of_gt nnn h⟩, fun x h => ⟨_, storeBlock_out _ s ?_, rfl⟩,
    fun x h => ⟨_, storeBlock_out _ s ?_, rfl⟩, fun x h => ⟨_, withBlock_out _ s _ ?_, rfl⟩,
    fun x y n hn h => ⟨_, withBlock_out _ s _ ?_, rfl⟩⟩
  · have := nnn.isLt
    simp only [encode, encodeNnn, BitVec.toNat_ofNat]
    omega
  · rw [length_decimalDigits]; omega
  · rw [length_regsTo]; omega
  · omega
  · omega

end Sys2Proof.Machine
end

section
/-! PROOF. A step is one transaction (R70): the call that it performs, and what each call can answer. -/

namespace Sys2Proof.Machine

/-! ## The call that a step performs -/

/-- The oldest pending call or, with none pending, the Step at a free time (log 2, log 3). -/
def State.nextCall (s : State) : HostCall :=
  s.pending.head?.getD (.step (freeNow s) (Config.ticks s.hostCalls))

/-- The state in which that call is performed: taken from the list and counted. -/
abbrev State.begun (s : State) : State :=
  { s with pending := s.pending.tail, reply := .ok, hostCalls := s.hostCalls + 1 }

theorem step_eq_perform (s : State) : step s = perform s.nextCall s.begun := by
  unfold State.nextCall State.begun
  cases h : s.pending with
  | cons c rest => exact step_pending s c rest h
  | nil =>
    have hbegin : s.begin = { s with pending := [], reply := .ok, hostCalls := s.hostCalls + 1 } := by
      rw [State.begin, ← h]
    rw [step_free s h, ← step_free_is_dutiful, hbegin]
    rfl

theorem nextCall_of_cons {s : State} {c : HostCall} {rest : List HostCall} (h : s.pending = c :: rest) :
    s.nextCall = c := by
  rw [State.nextCall, h]; rfl

/-- A call other than Step is taken from the pending list. -/
theorem pending_of_nextCall {s : State} {c : HostCall} (h : s.nextCall = c)
    (hc : ∀ now ticks, c ≠ .step now ticks) : s.pending = c :: s.pending.tail := by
  cases hp : s.pending with
  | cons d rest => rw [← h, nextCall_of_cons hp]; rfl
  | nil =>
    rw [State.nextCall, hp] at h
    exact absurd h.symm (hc _ _)

/-- A Step at a free time keeps the host's duty: it is the Step that the host would have called then (log 3). -/
theorem step_free_eq_due {s : State} (h : s.pending = []) :
    State.StepDue { s with pending := [.step (freeNow s) (Config.ticks s.hostCalls)] } (freeNow s)
        (Config.ticks s.hostCalls) [] ∧
      step s = step { s with pending := [.step (freeNow s) (Config.ticks s.hostCalls)] } := by
  refine ⟨⟨rfl, ?_⟩, ?_⟩
  · show s.hostNow ≤ freeNow s ∧ s.tickRef ≤ freeNow s
    unfold freeNow
    omega
  · rw [step_eq_perform, step_pending { s with pending := _ } _ [] rfl]
    simp only [State.nextCall, State.begun, h]
    rfl

/-! ## A Step -/

/-- What phases 2 to 5 can do (R114 to R117): each error ends them. -/
theorem fetchAndExecute_next_cases {s t : State} (h : fetchAndExecute s = .next t) :
    (4096 < s.pc.toNat + 2 ∧ s.Raised t (.addressOutOfRange s.pc)) ∨
    (s.pc.toNat + 2 ≤ 4096 ∧ decodeWord s.wordAtPc = none ∧
      s.advance.Raised t (.unsupportedOpcode s.wordAtPc)) ∨
    ∃ i, s.pc.toNat + 2 ≤ 4096 ∧ decodeWord s.wordAtPc = some i ∧ exec i s.advance = .next t := by
  rw [fetchAndExecute_eq] at h
  by_cases hpc : s.pc.toNat + 2 > 4096
  · rw [if_pos hpc] at h
    exact .inl ⟨hpc, raised_of_raise h⟩
  rw [if_neg hpc] at h
  cases hdecode : decodeWord s.wordAtPc with
  | none =>
    rw [decodeAndExecute_of_none hdecode] at h
    exact .inr (.inl ⟨not_lt.1 hpc, rfl, raised_of_raise h⟩)
  | some i =>
    rw [decodeAndExecute_of_some hdecode] at h
    exact .inr (.inr ⟨i, not_lt.1 hpc, rfl, h⟩)

/-- What a Step can do (R111, R112, R122): its time keeps the duty, and it either finds the block waiting or goes
on through its phases. -/
theorem stepCall_next_cases {now ticks : Nat} {s t : State} (h : stepCall now ticks s = .next t) :
    s.hostNow ≤ now ∧ s.tickRef ≤ now ∧
      ((s.runState = .waitingForKey ∧ State.Raised { s with hostNow := now } t .invalidState) ∨
        (s.runState = .running ∧ fetchAndExecute (timerPhase now ticks { s with hostNow := now }) = .next t)) := by
  unfold stepCall at h
  split at h
  · cases h
  refine ⟨by omega, by omega, ?_⟩
  rcases s.runState.running_or_waiting with hrun | hwait
  · exact .inr ⟨hrun, (stepPhases_running s now ticks hrun).symm.trans h⟩
  · exact .inl ⟨hwait, raised_of_raise ((stepPhases_waiting s now ticks hwait).symm.trans h)⟩

/-! ## The other calls -/

theorem programFits_iff (bytes : List Byte) :
    programFits bytes = true ↔ 80 + 512 + bytes.length ≤ 4096 := decide_eq_true_iff

theorem load_of_fits {bytes : List Byte} {now : Nat} {s : State} (hnow : s.hostNow ≤ now)
    (hfits : programFits bytes = true) :
    load bytes now s = .next (State.resetTo { s with hostNow := now } decidedReset bytes now) := by
  rw [load, if_neg hnow.not_gt, if_pos hfits, resetValues, params_resetArbitrary, if_neg Bool.false_ne_true]

theorem load_of_not_fits {bytes : List Byte} {now : Nat} {s : State} (hnow : s.hostNow ≤ now)
    (hfits : programFits bytes = false) :
    load bytes now s = raise .programTooLarge { s with hostNow := now } := by
  rw [load, if_neg hnow.not_gt, hfits, if_neg Bool.false_ne_true]

/-- What a Load can do (R300, R312). -/
theorem load_next_cases {bytes : List Byte} {now : Nat} {s t : State} (h : load bytes now s = .next t) :
    s.hostNow ≤ now ∧
      ((programFits bytes = true ∧ t = State.resetTo { s with hostNow := now } decidedReset bytes now) ∨
        State.Raised { s with hostNow := now } t .programTooLarge) := by
  by_cases hnow : now < s.hostNow
  · rw [load, if_pos hnow] at h
    cases h
  refine ⟨not_lt.1 hnow, ?_⟩
  cases hfits : programFits bytes with
  | true => cases (load_of_fits (not_lt.1 hnow) hfits).symm.trans h; exact .inl ⟨rfl, rfl⟩
  | false => exact .inr (raised_of_raise ((load_of_not_fits (not_lt.1 hnow) hfits).symm.trans h))

/-- What a KeyDown can do (R250, R253). -/
theorem keyDown_next_cases {k : Nat} {s t : State} (h : keyDown k s = .next t) :
    k ≤ 15 ∧
      ((s.runState = .running ∧ t = { s with keys := t.keys }) ∨
        (s.runState = .waitingForKey ∧
          t = { s with keys := t.keys, v := t.v, pc := t.pc, runState := .running })) := by
  by_cases hk : k > 15
  · rw [keyDown, if_pos hk] at h
    cases h
  refine ⟨not_lt.1 hk, ?_⟩
  rcases s.runState.running_or_waiting with hrun | hwait
  · cases (keyDown_running (not_lt.1 hk) hrun).symm.trans h; exact .inl ⟨hrun, rfl⟩
  · cases (keyDown_waiting (not_lt.1 hk) hwait).symm.trans h; exact .inr ⟨hwait, rfl⟩

theorem keyUp_next {k : Nat} {s t : State} (h : keyUp k s = .next t) : t = { s with keys := t.keys } := by
  by_cases hk : k > 15
  · rw [keyUp, if_pos hk] at h
    cases h
  · cases (keyUp_of_le (not_lt.1 hk) s).symm.trans h; rfl

theorem decSt_next {s t : State} (h : decSt s = .next t) : t = { s with st := t.st } := by
  unfold decSt at h
  split at h
  all_goals cases h; rfl

end Sys2Proof.Machine
end

section
/-! PROOF. The invariant (R32, R46): every step keeps it, and from it no step faults; and when a step is refused
(R122, R253, R312). -/

namespace Sys2Proof.Machine

/-! ## What an instruction keeps -/

theorem storeBlock_keeps_wf {bs : List Byte} {s t : State} (hwf : s.mem.wf = true)
    (h : storeBlock bs s = .next t) : t.mem.wf = true := by
  unfold storeBlock at h
  split at h
  · split at h
    · cases h; exact wf_memWriteBlock _ _ _ _ _ hwf ‹_›
    · cases h
  · cases h; exact hwf

/-- The canonical form of Memory: only the stores write Memory, and a store keeps the form. -/
theorem exec_keeps_wf {i : Instr} {s t : State} (hwf : s.mem.wf = true) (h : exec i s = .next t) :
    t.mem.wf = true := by
  by_cases hmem : t.mem = s.mem
  · rw [hmem]; exact hwf
  obtain ⟨hwriter, -⟩ := onlyTheWritersWrite i s t h
  obtain ⟨x, rfl | rfl⟩ := hwriter hmem
  · exact storeBlock_keeps_wf hwf h
  · exact storeBlock_keeps_wf hwf h

theorem exec_ret_keeps_sp_le {s t : State} (hsp : s.sp ≤ 16) (h : exec .ret s = .next t) : t.sp ≤ 16 := by
  by_cases h0 : s.sp = 0
  · cases (exec_ret_of_sp_zero h0).symm.trans h; exact hsp
  · cases (exec_ret_of_pos (Nat.pos_of_ne_zero h0) hsp).symm.trans h
    exact (Nat.sub_le _ _).trans hsp

theorem exec_call_keeps_sp_le {nnn : BitVec 12} {s t : State} (hsp : s.sp ≤ 16)
    (h : exec (.call nnn) s = .next t) : t.sp ≤ 16 := by
  rcases hsp.lt_or_eq with hlt | hfull
  · cases (exec_call_of_lt nnn hlt).symm.trans h; exact hlt
  · cases (exec_call_of_full nnn hfull).symm.trans h; exact hsp

/-- The bound on SP: only RET and CALL write SP, and a CALL that would pass 16 is an error (R132). -/
theorem exec_keeps_sp_le {i : Instr} {s t : State} (hsp : s.sp ≤ 16) (h : exec i s = .next t) :
    t.sp ≤ 16 := by
  by_cases hne : t.sp = s.sp
  · rw [hne]; exact hsp
  obtain ⟨-, -, -, -, -, -, hwriter, -⟩ := onlyTheWritersWrite i s t h
  obtain rfl | ⟨nnn, rfl⟩ := hwriter hne
  · exact exec_ret_keeps_sp_le hsp h
  · exact exec_call_keeps_sp_le hsp h

theorem exec_keeps_inv {i : Instr} {s t : State} (hinv : s.Inv) (h : exec i s = .next t) : t.Inv := by
  obtain ⟨hwf, hsp, htick⟩ := hinv
  obtain ⟨-, htickRef, hhostNow, -⟩ := exec_host h
  exact ⟨exec_keeps_wf hwf h, exec_keeps_sp_le hsp h, by rw [htickRef, hhostNow]; exact htick⟩

/-! ## What a transaction keeps -/

/-- The timer phase sets TICK_REF to the Step's time or leaves it (R113). -/
theorem timerPhase_keeps_inv {now ticks : Nat} {s : State} (hinv : s.Inv) (hnow : s.hostNow = now) :
    (timerPhase now ticks s).Inv := by
  obtain ⟨hwf, hsp, htick⟩ := hinv
  rcases timerPhase_cases now ticks s with ⟨-, -, hticks⟩ | ⟨-, hstays⟩
  · rw [hticks]; exact ⟨hwf, hsp, hnow.ge⟩
  · rw [hstays]; exact ⟨hwf, hsp, htick⟩

theorem fetchAndExecute_keeps_inv {s t : State} (hinv : s.Inv) (h : fetchAndExecute s = .next t) : t.Inv := by
  rcases fetchAndExecute_next_cases h with ⟨-, rfl⟩ | ⟨-, -, rfl⟩ | ⟨i, -, -, hexec⟩
  · exact hinv
  · exact hinv
  · exact exec_keeps_inv (s := s.advance) hinv hexec

/-- The host's time moves forward, so TICK_REF stays behind it (R312). -/
theorem inv_setHostNow {now : Nat} {s : State} (hinv : s.Inv) (hnow : s.hostNow ≤ now) :
    State.Inv { s with hostNow := now } := by
  obtain ⟨hwf, hsp, htick⟩ := hinv
  exact ⟨hwf, hsp, htick.trans hnow⟩

theorem stepCall_keeps_inv {now ticks : Nat} {s t : State} (hinv : s.Inv)
    (h : stepCall now ticks s = .next t) : t.Inv := by
  obtain ⟨hnow, -, ⟨-, rfl⟩ | ⟨-, hphases⟩⟩ := stepCall_next_cases h
  · exact inv_setHostNow (s := s) hinv hnow
  · exact fetchAndExecute_keeps_inv (timerPhase_keeps_inv (inv_setHostNow hinv hnow) rfl) hphases

/-- A program that fits is written below 4096, so Memory after a Load is canonical (R300). -/
theorem wf_loaded {bytes : List Byte} (h : programFits bytes = true) :
    (Memory.setBytes [] Config.programBase bytes).wf = true := by
  refine wf_setBytes _ _ _ ?_ wf_nil
  rw [programFits_iff] at h
  rw [Config.programBase]
  omega

theorem load_keeps_inv {bytes : List Byte} {now : Nat} {s t : State} (hinv : s.Inv)
    (h : load bytes now s = .next t) : t.Inv := by
  obtain ⟨hnow, ⟨hfits, rfl⟩ | rfl⟩ := load_next_cases h
  · exact ⟨wf_loaded hfits, Nat.zero_le _, le_refl now⟩
  · exact inv_setHostNow (s := s) hinv hnow

theorem perform_keeps_inv {c : HostCall} {s t : State} (hinv : s.Inv) (h : perform c s = .next t) : t.Inv := by
  cases c with
  | load bytes now => exact load_keeps_inv hinv h
  | step now ticks => exact stepCall_keeps_inv hinv h
  | keyDown k =>
    obtain ⟨-, ⟨-, ht⟩ | ⟨-, ht⟩⟩ := keyDown_next_cases h
    all_goals rw [ht]; exact hinv
  | keyUp k => rw [keyUp_next h]; exact hinv
  | decSt => rw [decSt_next h]; exact hinv
  | exportFrame | readSt => cases h; exact hinv

/-- Settles O52: a step performs one call, and each call keeps the invariant. -/
theorem stepKeepsInvariant : Obligations.StepKeepsInvariant := fun s _ hinv h =>
  perform_keeps_inv (s := s.begun) hinv ((step_eq_perform s).symm.trans h)

/-! ## How a step ends -/

/-- The call breaks a duty of the host's: its time decreases, or it names a key above 15 (R122, R253, R312). -/
def BreaksDuty : HostCall → State → Prop
  | .load _ now, s => now < s.hostNow
  | .step now _, s => now < s.hostNow ∨ now < s.tickRef
  | .keyDown k, _ | .keyUp k, _ => 15 < k
  | .exportFrame, _ | .readSt, _ | .decSt, _ => False

/-- Phases 2 to 5 answer a next state, but where the instruction faults. -/
theorem fetchAndExecute_outcome (s : State) :
    (∃ t, fetchAndExecute s = .next t) ∨ (16 < s.sp ∧ ∃ f, fetchAndExecute s = .fault f) := by
  rw [fetchAndExecute_eq]
  split
  · exact .inl ⟨_, rfl⟩
  cases hdecode : decodeWord s.wordAtPc with
  | none => rw [decodeAndExecute_of_none hdecode]; exact .inl ⟨_, rfl⟩
  | some i =>
    rw [decodeAndExecute_of_some hdecode]
    exact (exec_outcome i s.advance).imp_right fun ⟨hsp, hfault⟩ => ⟨hsp, _, hfault⟩

theorem stepPhases_outcome (now ticks : Nat) (s : State) :
    (∃ t, stepPhases now ticks s = .next t) ∨ (16 < s.sp ∧ ∃ f, stepPhases now ticks s = .fault f) := by
  rcases s.runState.running_or_waiting with hrun | hwait
  · have h := fetchAndExecute_outcome (timerPhase now ticks { s with hostNow := now })
    rw [timerPhase_sp] at h
    rw [stepPhases_running s now ticks hrun]
    exact h
  · rw [stepPhases_waiting s now ticks hwait]; exact .inl ⟨_, rfl⟩

/-- A call that breaks no duty is answered with a next state, or faults at an SP above 16. -/
theorem perform_outcome {c : HostCall} {s : State} (h : ¬ BreaksDuty c s) :
    (∃ t, perform c s = .next t) ∨ (16 < s.sp ∧ ∃ f, perform c s = .fault f) := by
  cases c with
  | load bytes now =>
    cases hfits : programFits bytes with
    | true => exact .inl ⟨_, load_of_fits (not_lt.1 h) hfits⟩
    | false => exact .inl ⟨_, load_of_not_fits (not_lt.1 h) hfits⟩
  | step now ticks =>
    have hstep : perform (.step now ticks) s = stepPhases now ticks s := if_neg h
    rw [hstep]
    exact stepPhases_outcome now ticks s
  | keyDown k =>
    rcases s.runState.running_or_waiting with hrun | hwait
    · exact .inl ⟨_, keyDown_running (not_lt.1 h) hrun⟩
    · exact .inl ⟨_, keyDown_waiting (not_lt.1 h) hwait⟩
  | keyUp k => exact .inl ⟨_, keyUp_of_le (not_lt.1 h) s⟩
  | exportFrame | readSt | decSt => exact .inl ⟨_, rfl⟩

theorem perform_refused {c : HostCall} {s : State} (h : BreaksDuty c s) : ∃ r, perform c s = .refused r := by
  cases c with
  | load bytes now => exact ⟨_, if_pos h⟩
  | step now ticks => exact ⟨_, if_pos h⟩
  | keyDown k => exact ⟨_, if_pos h⟩
  | keyUp k => exact ⟨_, if_pos h⟩
  | exportFrame | readSt | decSt => exact h.elim

/-- Settles O53: a fault needs an SP above 16, which the invariant rules out. -/
theorem invariantStepNeverFaults : Obligations.InvariantStepNeverFaults := by
  intro s f hinv hfault
  obtain ⟨-, hsp, -⟩ := hinv
  rw [step_eq_perform] at hfault
  by_cases hduty : BreaksDuty s.nextCall s.begun
  · obtain ⟨r, hr⟩ := perform_refused hduty
    cases hr.symm.trans hfault
  · rcases perform_outcome hduty with ⟨t, ht⟩ | ⟨hgt, -⟩
    · cases ht.symm.trans hfault
    · exact hsp.not_gt hgt

theorem step_refused_iff (s : State) : (∃ r, step s = .refused r) ↔ BreaksDuty s.nextCall s.begun := by
  rw [step_eq_perform]
  refine ⟨fun ⟨r, hr⟩ => ?_, perform_refused⟩
  by_contra hduty
  rcases perform_outcome hduty with ⟨t, ht⟩ | ⟨-, f, hf⟩
  · cases ht.symm.trans hr
  · cases hf.symm.trans hr

/-- The Step at a free time breaks no duty (log 3). -/
theorem not_breaksDuty_free (s : State) : ¬ BreaksDuty (.step (freeNow s) (Config.ticks s.hostCalls)) s := by
  simp only [BreaksDuty, freeNow]
  omega

/-- Settles O55: a step is refused when its call breaks a duty, and such a call is a pending one. -/
theorem refusedExactlyOnBrokenDuty : Obligations.RefusedExactlyOnBrokenDuty := by
  intro s
  rw [step_refused_iff]
  cases hp : s.pending with
  | nil =>
    have hcall : s.nextCall = .step (freeNow s) (Config.ticks s.hostCalls) := by rw [State.nextCall, hp]; rfl
    rw [hcall]
    exact ⟨fun h => absurd h (not_breaksDuty_free s), by simp⟩
  | cons c rest =>
    rw [nextCall_of_cons hp]
    cases c with
    | load bytes now => simp [BreaksDuty]
    | step now ticks => simp [BreaksDuty]
    | keyDown k => simp [BreaksDuty]
    | keyUp k => simp [BreaksDuty]
    | exportFrame | readSt | decSt => simp [BreaksDuty]

/-- Settles O51: Memory is the empty list, SP and the times are 0, and the block runs. -/
theorem resetMeetsInvariant : Obligations.ResetMeetsInvariant :=
  ⟨⟨wf_nil, Nat.zero_le _, le_refl 0⟩, nofun⟩

end Sys2Proof.Machine
end

section
/-! PROOF. Which events change STATE (R40, R41, R252, R254, R303), and the wait invariant (R235, C1). -/

namespace Sys2Proof.Machine

/-! ## Entering a wait -/

theorem exec_ldVxK (x : RegIdx) (s : State) :
    exec (.ldVxK x) s = .next { s with waitX := x, runState := .waitingForKey, pc := s.pc - 2 } := rfl

/-- On the advanced PC the rewind of FX0A comes back to the FX0A (R235). -/
theorem exec_ldVxK_advance (x : RegIdx) (s : State) :
    exec (.ldVxK x) s.advance = .next { s with waitX := x, runState := .waitingForKey } := by
  rw [exec_ldVxK, advance_pc, BitVec.add_sub_cancel]
  rfl

/-- Of all instructions only FX0A begins a wait. -/
theorem exec_starts_wait {i : Instr} {s t : State} (hrun : s.runState = .running) (h : exec i s = .next t)
    (hwait : t.runState = .waitingForKey) : ∃ x, i = .ldVxK x := by
  obtain ⟨-, -, -, -, -, -, -, -, -, hwriter, -⟩ := onlyTheWritersWrite i s t h
  refine hwriter (.inl ?_)
  rw [hrun, hwait]
  exact nofun

/-- Phases 2 to 5 begin a wait only by an FX0A at PC, and then PC is at it again. -/
theorem fetchAndExecute_starts_wait {s t : State} (hrun : s.runState = .running)
    (h : fetchAndExecute s = .next t) (hwait : t.runState = .waitingForKey) :
    s.pc.toNat + 2 ≤ 4096 ∧ ∃ x, decodeWord s.wordAtPc = some (.ldVxK x) ∧
      t = { s with waitX := x, runState := .waitingForKey } := by
  rcases fetchAndExecute_next_cases h with ⟨-, rfl⟩ | ⟨-, -, rfl⟩ | ⟨i, hpc, hdecode, hexec⟩
  · cases hrun.symm.trans hwait
  · cases hrun.symm.trans hwait
  · obtain ⟨x, rfl⟩ := exec_starts_wait (s := s.advance) hrun hexec hwait
    cases (exec_ldVxK_advance x s).symm.trans hexec
    exact ⟨hpc, x, hdecode, rfl⟩

/-! ## What the calls do to STATE -/

/-- A wait begins in a Step whose word at PC is an FX0A; PC and Memory end as they were. -/
theorem perform_starts_wait {c : HostCall} {s t : State} (hrun : s.runState = .running)
    (h : perform c s = .next t) (hwait : t.runState = .waitingForKey) :
    (∃ now ticks, c = .step now ticks) ∧ s.pc.toNat + 2 ≤ 4096 ∧
      decodeWord s.wordAtPc = some (.ldVxK t.waitX) ∧ t.mem = s.mem ∧ t.pc = s.pc := by
  cases c with
  | step now ticks =>
    obtain ⟨-, -, ⟨hwait', -⟩ | ⟨-, hphases⟩⟩ := stepCall_next_cases h
    · cases hrun.symm.trans hwait'
    have hrun' : (timerPhase now ticks { s with hostNow := now }).runState = .running := by
      rw [timerPhase_runState]; exact hrun
    obtain ⟨hpc, x, hdecode, rfl⟩ := fetchAndExecute_starts_wait hrun' hphases hwait
    simp only [State.wordAtPc, timerPhase_pc, timerPhase_mem] at hpc hdecode ⊢
    exact ⟨⟨now, ticks, rfl⟩, hpc, hdecode, trivial, trivial⟩
  | load bytes now =>
    obtain ⟨-, ⟨-, rfl⟩ | rfl⟩ := load_next_cases h
    · cases hwait
    · cases hrun.symm.trans hwait
  | keyDown k =>
    obtain ⟨-, ⟨-, ht⟩ | ⟨hwait', -⟩⟩ := keyDown_next_cases h
    · rw [ht] at hwait; cases hrun.symm.trans hwait
    · cases hrun.symm.trans hwait'
  | keyUp k => rw [keyUp_next h] at hwait; cases hrun.symm.trans hwait
  | decSt => rw [decSt_next h] at hwait; cases hrun.symm.trans hwait
  | exportFrame | readSt => cases h; cases hrun.symm.trans hwait

/-- What a call makes of a waiting block: KeyDown and Load end the wait, and every other call leaves Memory, PC,
STATE and WAIT_X alone. -/
theorem perform_waiting {c : HostCall} {s t : State} (hwait : s.runState = .waitingForKey)
    (h : perform c s = .next t) :
    (t.runState = .running ∧ ((∃ k, k ≤ 15 ∧ c = .keyDown k) ∨ ∃ bytes now, c = .load bytes now)) ∨
    (t.mem = s.mem ∧ t.pc = s.pc ∧ t.runState = s.runState ∧ t.waitX = s.waitX) := by
  cases c with
  | step now ticks =>
    obtain ⟨-, -, ⟨-, rfl⟩ | ⟨hrun, -⟩⟩ := stepCall_next_cases h
    · exact .inr ⟨rfl, rfl, rfl, rfl⟩
    · cases hrun.symm.trans hwait
  | load bytes now =>
    obtain ⟨-, ⟨-, rfl⟩ | rfl⟩ := load_next_cases h
    · exact .inl ⟨rfl, .inr ⟨bytes, now, rfl⟩⟩
    · exact .inr ⟨rfl, rfl, rfl, rfl⟩
  | keyDown k =>
    obtain ⟨hk, ⟨hrun, -⟩ | ⟨-, ht⟩⟩ := keyDown_next_cases h
    · cases hrun.symm.trans hwait
    · exact .inl ⟨congrArg State.runState ht, .inl ⟨k, hk, rfl⟩⟩
  | keyUp k => rw [keyUp_next h]; exact .inr ⟨rfl, rfl, rfl, rfl⟩
  | decSt => rw [decSt_next h]; exact .inr ⟨rfl, rfl, rfl, rfl⟩
  | exportFrame | readSt => cases h; exact .inr ⟨rfl, rfl, rfl, rfl⟩

/-! ## The obligations -/

/-- A fetch reads Memory and PC only. -/
theorem fetchWord_congr {s t : State} (hmem : t.mem = s.mem) (hpc : t.pc = s.pc) :
    fetchWord t = fetchWord s := by
  rw [fetchWord, fetchWord, hmem, hpc]

/-- Settles O54: a wait that begins has its FX0A at PC, and one that goes on keeps Memory, PC and WAIT_X. -/
theorem stepKeepsWaitInvariant : Obligations.StepKeepsWaitInvariant := by
  intro s t hinv h hwait
  rw [step_eq_perform] at h
  rcases s.runState.running_or_waiting with hrun | hwaits
  · obtain ⟨-, hpc, hdecode, hmem', hpc'⟩ := perform_starts_wait (s := s.begun) hrun h hwait
    rw [fetchWord_congr hmem' hpc', fetchWord_in s.begun hpc]
    exact hdecode
  · rcases perform_waiting (s := s.begun) hwaits h with ⟨hrun, -⟩ | ⟨hmem', hpc', -, hwaitX⟩
    · cases hrun.symm.trans hwait
    · rw [fetchWord_congr hmem' hpc', hwaitX]
      exact hinv hwaits

/-- A Step stands at the head of the pending list or is made when nothing is pending. -/
theorem pending_of_nextCall_step {s : State} {now ticks : Nat} (h : s.nextCall = .step now ticks) :
    s.pending = [] ∨ ∃ now ticks rest, s.pending = .step now ticks :: rest := by
  cases hp : s.pending with
  | nil => exact .inl rfl
  | cons c rest =>
    obtain rfl := (nextCall_of_cons hp).symm.trans h
    exact .inr ⟨now, ticks, rest, rfl⟩

/-- Settles O43: what ends a wait and what begins one, read off the call that the step performs. -/
theorem onlyTheseEventsChangeState : Obligations.OnlyTheseEventsChangeState := by
  intro s t h
  rw [step_eq_perform] at h
  refine ⟨fun hwait hrun => ?ends, fun hrun hwait => ?begins⟩
  case ends =>
    rcases perform_waiting (s := s.begun) hwait h with
      ⟨-, ⟨k, hk, hc⟩ | ⟨bytes, now, hc⟩⟩ | ⟨-, -, hstays, -⟩
    · exact ⟨_, .inl ⟨k, hk, pending_of_nextCall hc nofun⟩⟩
    · exact ⟨_, .inr ⟨bytes, now, pending_of_nextCall hc nofun⟩⟩
    · cases (hstays.trans hwait).symm.trans hrun
  case begins =>
    obtain ⟨⟨now, ticks, hc⟩, hpc, hdecode, -⟩ := perform_starts_wait (s := s.begun) hrun h hwait
    exact ⟨pending_of_nextCall_step hc, hpc, _, hdecode, rfl⟩

/-- Settles O39: FX0A takes 2 from PC, which on the advanced PC undoes the advance. -/
theorem waitForKeyRewinds : Obligations.WaitForKeyRewinds := fun x s =>
  ⟨⟨_, exec_ldVxK_advance x s, rfl⟩, ⟨_, exec_ldVxK x s, rfl, BitVec.sub_add_cancel s.pc 2⟩,
    onRow_row (.ldVxK x)⟩

/-- Settles O42: FX0A leaves PC at itself and the KeyDown moves it past (R252). -/
theorem keyWaitCompletesByInjection : Obligations.KeyWaitCompletesByInjection := by
  intro x s t k rest h hk
  cases (exec_ldVxK_advance x s).symm.trans h
  obtain ⟨u, hstep, -, -, hinject⟩ := keyDownSetsBitAndInjects
    { s with waitX := x, runState := .waitingForKey, pending := .keyDown k :: rest } k rest rfl hk
  obtain ⟨hblock, hkey, hothers⟩ := hinject rfl
  exact ⟨rfl, u, hstep, congrArg State.runState hblock, congrArg State.pc hblock, hkey, hothers⟩

end Sys2Proof.Machine
end

section
/-! PROOF. The order of the transactions and the record of errors (R70, R277). -/

namespace Sys2Proof.Machine

/-- The pending list and the count stay, and the record of errors stays or takes one more error, which is the
reply (log 1, log 2). -/
def Recorded (s t : State) : Prop :=
  t.pending = s.pending ∧ t.hostCalls = s.hostCalls ∧
    (t.errors = s.errors ∨ ∃ e, t.errors = e :: s.errors ∧ t.reply = .error e)

theorem recorded_of_raised {s t : State} {e : CoreError} (h : s.Raised t e) : Recorded s t := by
  subst h
  exact ⟨rfl, rfl, .inr ⟨e, rfl, rfl⟩⟩

theorem recorded_of_exec {i : Instr} {s t : State} (h : exec i s = .next t) : Recorded s t := by
  rcases exec_next_cases h with hframe | ⟨e, -, hraised⟩
  · obtain ⟨-, -, -, hpending, hcalls, herrors, -⟩ := hframe.host
    exact ⟨hpending, hcalls, .inl herrors⟩
  · exact recorded_of_raised hraised

theorem recorded_of_fetchAndExecute {s t : State} (h : fetchAndExecute s = .next t) : Recorded s t := by
  rcases fetchAndExecute_next_cases h with ⟨-, hraised⟩ | ⟨-, -, hraised⟩ | ⟨i, -, -, hexec⟩
  · exact recorded_of_raised hraised
  · exact recorded_of_raised (s := s.advance) hraised
  · exact recorded_of_exec (s := s.advance) hexec

theorem recorded_of_stepCall {now ticks : Nat} {s t : State} (h : stepCall now ticks s = .next t) :
    Recorded s t := by
  obtain ⟨-, -, ⟨-, hraised⟩ | ⟨-, hphases⟩⟩ := stepCall_next_cases h
  · exact recorded_of_raised (s := { s with hostNow := now }) hraised
  · have hrec := recorded_of_fetchAndExecute hphases
    rwa [Recorded, timerPhase_pending, timerPhase_hostCalls, timerPhase_errors] at hrec

theorem recorded_of_perform {c : HostCall} {s t : State} (h : perform c s = .next t) : Recorded s t := by
  cases c with
  | step now ticks => exact recorded_of_stepCall h
  | load bytes now =>
    obtain ⟨-, ⟨-, rfl⟩ | hraised⟩ := load_next_cases h
    · exact ⟨rfl, rfl, .inl rfl⟩
    · exact recorded_of_raised (s := { s with hostNow := now }) hraised
  | keyDown k =>
    obtain ⟨-, ⟨-, ht⟩ | ⟨-, ht⟩⟩ := keyDown_next_cases h
    all_goals rw [ht]; exact ⟨rfl, rfl, .inl rfl⟩
  | keyUp k => rw [keyUp_next h]; exact ⟨rfl, rfl, .inl rfl⟩
  | decSt => rw [decSt_next h]; exact ⟨rfl, rfl, .inl rfl⟩
  | exportFrame | readSt => cases h; exact ⟨rfl, rfl, .inl rfl⟩

/-- Settles O56: the call is taken from the list before it is performed, and no call touches the list again. -/
theorem transactionsRunInOrder : Obligations.TransactionsRunInOrder := fun s _ h =>
  recorded_of_perform (s := s.begun) ((step_eq_perform s).symm.trans h)

end Sys2Proof.Machine
end

section
/-! PROOF. The instructions that write the flag first (8XY5, 8XY6, 8XY7, 8XYE; R14, R159 to R162): VF takes the flag,
and then the result is computed from the registers as they stand. -/

namespace Sys2Proof.Machine

/-! ## The flag, then the result -/

@[simp] theorem reg_flagThenResult_self (x : RegIdx) (flag result : State → Byte) (s : State) :
    (flagThenResult .sequential x flag result s).reg x = result (s.setReg regF (flag s)) :=
  reg_setReg_self _ x _

@[simp] theorem reg_flagThenResult_regF {x : RegIdx} (hx : x ≠ regF) (flag result : State → Byte) (s : State) :
    (flagThenResult .sequential x flag result s).reg regF = flag s :=
  (reg_setReg_ne _ _ hx.symm).trans (reg_setReg_self s regF _)

theorem setReg_comm (s : State) {x y : RegIdx} (h : x ≠ y) (a b : Byte) :
    (s.setReg x a).setReg y b = (s.setReg y b).setReg x a := by
  have hne : x.val ≠ y.val := fun e => h (Fin.ext e)
  simp only [State.setReg]
  rw [Vector.set_comm _ _ hne]

/-- A result that does not see the flag's write comes out the same in both orders, for X other than F (D13). -/
theorem flagThenResult_snapshot_eq {x : RegIdx} (hx : x ≠ regF) {flag result : State → Byte} {s : State}
    (hresult : result (s.setReg regF (flag s)) = result s) :
    flagThenResult .snapshot x flag result s = flagThenResult .sequential x flag result s := by
  rw [flagThenResult, flagThenResult, hresult, resultThenFlag, setReg_comm s hx]

/-- Settles O23: the operands of each instruction are not VF, so its result does not see the flag. -/
theorem flagOrdersAgreeOffF : Obligations.FlagOrdersAgreeOffF := by
  intro x y s
  refine ⟨fun hx hy => ⟨?_, ?_⟩, fun hx => ⟨?_, ?_⟩, fun f r => reg_resultThenFlag_regF x _ _ s⟩
  · exact flagThenResult_snapshot_eq hx (by simp only [reg_setReg_ne s _ hx, reg_setReg_ne s _ hy])
  · exact flagThenResult_snapshot_eq hx (by simp only [reg_setReg_ne s _ hx, reg_setReg_ne s _ hy])
  · exact flagThenResult_snapshot_eq hx (by simp only [reg_setReg_ne s _ hx])
  · exact flagThenResult_snapshot_eq hx (by simp only [reg_setReg_ne s _ hx])

/-! ## The flags as numbers -/

theorem greaterFlag_toNat (a b : Byte) : (greaterFlag a b).toNat = if a.toNat > b.toNat then 1 else 0 := by
  rw [greaterFlag, flagOf]
  split <;> simp_all

theorem flagOf_toNat (c : Bool) : (flagOf c).toNat = c.toNat := by
  cases c <;> rfl

theorem lowBitFlag_toNat (a : Byte) : (lowBitFlag a).toNat = a.toNat % 2 := by
  rw [lowBitFlag, flagOf_toNat, ← BitVec.testBit_toNat, Nat.toNat_testBit, pow_zero, Nat.div_one]

theorem highBitFlag_toNat (a : Byte) : (highBitFlag a).toNat = a.toNat / 128 := by
  have := a.isLt
  rw [highBitFlag, flagOf_toNat, ← BitVec.testBit_toNat, Nat.toNat_testBit]
  omega

/-! ## The subtractions -/

/-- A register read once VF holds the flag. -/
theorem reg_setReg_regF_toNat (s : State) (f : Byte) (x : RegIdx) :
    ((s.setReg regF f).reg x).toNat = if x = regF then f.toNat else (s.reg x).toNat := by
  rw [reg_setReg]
  split <;> rfl

theorem toNat_sub_byte (a b : Byte) : (a - b).toNat = (a.toNat + 256 - b.toNat) % 256 := by
  have := a.isLt
  have := b.isLt
  rw [BitVec.toNat_sub]
  omega

/-- `V[a] - V[b]` into V[X], the flag of `V[a] > V[b]` first (R159, R161). -/
theorem subtract_flag_first {i : Instr} {x a b : RegIdx} {s : State}
    (h : exec i s = .next (flagThenResult .sequential x (fun r => greaterFlag (r.reg a) (r.reg b))
      (fun r => r.reg a - r.reg b) s)) :
    ∃ t, ∃ f : Nat, exec i s = .next t ∧ s.OnlyRegs t [x, regF] ∧
      ((s.reg a).toNat > (s.reg b).toNat → f = 1) ∧ (¬ (s.reg a).toNat > (s.reg b).toNat → f = 0) ∧
      (x ≠ regF → (t.reg regF).toNat = f) ∧
      (t.reg x).toNat = ((if a = regF then f else (s.reg a).toNat) + 256 -
        (if b = regF then f else (s.reg b).toNat)) % 256 := by
  refine ⟨_, (greaterFlag (s.reg a) (s.reg b)).toNat, h, flagThenResult_onlyRegs _ x _ _ s, fun hgt => ?_,
    fun hle => ?_, fun hx => ?_, ?_⟩
  · rw [greaterFlag_toNat, if_pos hgt]
  · rw [greaterFlag_toNat, if_neg hle]
  · rw [reg_flagThenResult_regF hx]
  · rw [reg_flagThenResult_self, toNat_sub_byte, reg_setReg_regF_toNat, reg_setReg_regF_toNat]

/-- Settles O21: both are one subtraction with the operands exchanged. -/
theorem subtractsWriteFlagFirst : Obligations.SubtractsWriteFlagFirst := fun x y _ =>
  ⟨subtract_flag_first rfl, subtract_flag_first rfl, onRow_row (.sub x y), onRow_row (.subn x y)⟩

/-! ## The shifts -/

theorem exec_shr (x y : RegIdx) (s : State) :
    exec (.shr x y) s =
      .next (flagThenResult .sequential x (fun r => lowBitFlag (r.reg x)) (fun r => r.reg x >>> 1) s) := rfl

theorem exec_shl (x y : RegIdx) (s : State) :
    exec (.shl x y) s =
      .next (flagThenResult .sequential x (fun r => highBitFlag (r.reg x)) (fun r => r.reg x <<< 1) s) := rfl

theorem toNat_shiftRight_one (a : Byte) : (a >>> 1).toNat = a.toNat / 2 := by
  rw [BitVec.toNat_ushiftRight, Nat.shiftRight_eq_div_pow, pow_one]

theorem toNat_shiftLeft_one (a : Byte) : (a <<< 1).toNat = a.toNat * 2 % 256 := by
  rw [BitVec.toNat_shiftLeft, Nat.shiftLeft_eq, pow_one]

/-- Settles O22: with X = F the value that is shifted is the flag itself, 0 or 1. -/
theorem shiftsWriteFlagFirst : Obligations.ShiftsWriteFlagFirst := by
  intro x y s
  have hlt := (s.reg x).isLt
  refine ⟨⟨_, exec_shr x y s, flagThenResult_onlyRegs _ x _ _ s, fun hx => ⟨?_, ?_⟩, fun hx => ?_⟩,
    ⟨_, exec_shl x y s, flagThenResult_onlyRegs _ x _ _ s, fun hx => ⟨?_, ?_⟩, fun hx => ?_⟩,
    onRow_row (.shr x y), onRow_row (.shl x y)⟩
  · rw [reg_flagThenResult_self, reg_setReg_ne s _ hx, toNat_shiftRight_one]
  · rw [reg_flagThenResult_regF hx, lowBitFlag_toNat]
  · subst hx
    apply BitVec.eq_of_toNat_eq
    rw [reg_flagThenResult_self, reg_setReg_self, toNat_shiftRight_one, lowBitFlag_toNat]
    show _ = 0
    omega
  · rw [reg_flagThenResult_self, reg_setReg_ne s _ hx, toNat_shiftLeft_one]
  · rw [reg_flagThenResult_regF hx, highBitFlag_toNat]
  · subst hx
    rw [reg_flagThenResult_self, reg_setReg_self, toNat_shiftLeft_one, highBitFlag_toNat]
    omega

/-! ## The free byte -/

theorem exec_rnd (x : RegIdx) (nn : Byte) (s : State) :
    exec (.rnd x nn) s =
      .next (State.setReg { s with draws := s.draws + 1 } x (Config.rand8 s.draws &&& nn)) := rfl

/-- Settles O24: what the mask NN leaves of any byte has no bit outside NN. -/
theorem randomIsMaskedFreeByte : Obligations.RandomIsMaskedFreeByte := by
  intro x nn s
  refine ⟨_, exec_rnd x nn s, rfl, fun y hy => reg_setReg_ne _ _ hy, reg_setReg_self _ x _, ?_⟩
  rw [reg_setReg_self, BitVec.and_assoc, BitVec.and_not_self]
  exact BitVec.and_zero

end Sys2Proof.Machine
end

section
/-! PROOF. The index register and the memory transfers (R181 to R186), in the range that D9 fixes. -/

namespace Sys2Proof.Machine

/-! ## I -/

theorem exec_addI (x : RegIdx) (s : State) :
    exec (.addI x) s = .next { s with i := s.i + (s.reg x).setWidth 16 } := rfl

/-- Settles O26: V[X] is widened without loss, and only I is written. -/
theorem addToIndexWraps : Obligations.AddToIndexWraps := by
  intro x s
  refine ⟨⟨_, exec_addI x s, rfl, ?_⟩, onRow_row (.addI x)⟩
  rw [BitVec.toNat_add, BitVec.toNat_setWidth_of_le (by decide)]

/-! ## Stores -/

/-- A store changes no byte outside the bytes stored. -/
theorem storeBlock_onlyBytes (s : State) (bs : List Byte) :
    s.OnlyBytes { s with mem := s.mem.setBytes s.i.toNat bs } s.i.toNat bs.length :=
  ⟨rfl, fun b hb => by rw [byteAt_setBytes, if_neg hb]⟩

/-- The byte that a store leaves at `I + k`. -/
theorem byteAt_setBytes_add (m : Memory) (a : Nat) {bs : List Byte} {k : Nat} (hk : k < bs.length) :
    (m.setBytes a bs).byteAt (a + k) = bs.getD k 0 := by
  rw [byteAt_setBytes, if_pos ⟨Nat.le_add_right a k, Nat.add_lt_add_left hk a⟩, Nat.add_sub_cancel_left]

theorem exec_ldB {x : RegIdx} {s : State} (h : s.i.toNat + 3 ≤ 4096) :
    exec (.ldB x) s = .next { s with mem := s.mem.setBytes s.i.toNat (decimalDigits (s.reg x)) } :=
  storeBlock_in _ s (.inr h)

theorem exec_ldMemVx {x : RegIdx} {s : State} (h : s.i.toNat + (x.val + 1) ≤ 4096) :
    exec (.ldMemVx x) s = .next { s with mem := s.mem.setBytes s.i.toNat (s.regsTo x) } :=
  storeBlock_in _ s (.inr (by rw [length_regsTo]; exact h))

/-- A decimal digit fits in a byte, so it is not reduced (R183). -/
theorem decimalDigits_toNat (b : Byte) :
    ((decimalDigits b).getD 0 0).toNat = b.toNat / 100 ∧ ((decimalDigits b).getD 1 0).toNat = b.toNat / 10 % 10 ∧
      ((decimalDigits b).getD 2 0).toNat = b.toNat % 10 := by
  have := b.isLt
  simp only [decimalDigits, List.getD_cons_zero, List.getD_cons_succ, BitVec.toNat_ofNat]
  omega

/-- Settles O27: the three bytes stored are the digits. -/
theorem storesDecimalDigits : Obligations.StoresDecimalDigits := by
  intro x s hrange
  obtain ⟨hhundreds, htens, hones⟩ := decimalDigits_toNat (s.reg x)
  have hbyte : ∀ k < 3, (s.mem.setBytes s.i.toNat (decimalDigits (s.reg x))).byteAt (s.i.toNat + k) =
      (decimalDigits (s.reg x)).getD k 0 := fun k hk => byteAt_setBytes_add _ _ hk
  refine ⟨_, exec_ldB hrange, storeBlock_onlyBytes s _, ?_, ?_, ?_⟩
  · exact (congrArg BitVec.toNat (hbyte 0 (by decide))).trans hhundreds
  · exact (congrArg BitVec.toNat (hbyte 1 (by decide))).trans htens
  · exact (congrArg BitVec.toNat (hbyte 2 (by decide))).trans hones

/-- The byte that FX55 leaves at `I + k` is V[k] (R184). -/
theorem byteAt_setBytes_regsTo (m : Memory) (a : Nat) (s : State) {x k : RegIdx} (hk : k.val ≤ x.val) :
    (m.setBytes a (s.regsTo x)).byteAt (a + k.val) = s.reg k := by
  have hlt : k.val < (s.regsTo x).length := by rw [length_regsTo]; omega
  rw [byteAt_setBytes_add m a hlt, getD_regsTo s x k hk]

/-- Settles O28: the block stored is V[0] to V[X]. -/
theorem storesRegisterBlock : Obligations.StoresRegisterBlock := by
  intro x s hrange
  have honly := storeBlock_onlyBytes s (s.regsTo x)
  rw [length_regsTo] at honly
  exact ⟨_, exec_ldMemVx hrange, honly, fun k hk => byteAt_setBytes_regsTo _ _ s hk⟩

/-! ## Loads -/

/-- The `n` bytes from `a` on, as a block read answers them. -/
abbrev bytesFrom (m : Memory) (a n : Nat) : List Byte := (List.range n).map fun k => m.byteAt (a + k)

theorem exec_ldVxMem {x : RegIdx} {s : State} (h : s.i.toNat + (x.val + 1) ≤ 4096) :
    exec (.ldVxMem x) s = .next (s.setRegs (bytesFrom s.mem s.i.toNat (x.val + 1))) :=
  withBlock_in _ s _ (.inr h)

theorem reg_setRegs_bytesFrom (s : State) (m : Memory) (a : Nat) {n : Nat} {k : RegIdx} (hk : k.val < n) :
    (s.setRegs (bytesFrom m a n)).reg k = m.byteAt (a + k.val) := by
  simp [hk]

theorem length_bytesFrom (m : Memory) (a n : Nat) : (bytesFrom m a n).length = n := by simp

/-- Settles O29: the registers that the block reaches take its bytes, the others stay. -/
theorem loadsRegisterBlock : Obligations.LoadsRegisterBlock := fun _ s hrange =>
  ⟨_, exec_ldVxMem hrange, rfl, fun _ hk => reg_setRegs_bytesFrom s _ _ (Nat.lt_succ_of_le hk),
    fun _ hk => setRegs_keeps_reg s ((length_bytesFrom _ _ _).trans_le hk)⟩

/-- Settles O30: FX65 reads the bytes that FX55 wrote at the same addresses. -/
theorem storeThenLoadRestoresRegisters : Obligations.StoreThenLoadRestoresRegisters := by
  intro x s t u hrange hstore hmem hi
  cases (exec_ldMemVx hrange).symm.trans hstore
  have hi : u.i = s.i := hi
  obtain ⟨w, hload, honly, hlow, hhigh⟩ := loadsRegisterBlock x u (by rw [hi]; exact hrange)
  refine ⟨w, hload, honly, fun k hk => ?_, hhigh⟩
  rw [hlow k hk, hmem, hi]
  exact byteAt_setBytes_regsTo _ _ s hk

/-! ## The variants of OOR_POLICY and KEY_OOR_POLICY (D9, D17) -/

theorem effectiveAddress_of_lt (p : Config.OorPolicy) {a : Nat} (h : a < 4096) : effectiveAddress p a = a := by
  cases p
  · rfl
  · exact Nat.mod_eq_of_lt h

theorem memReadBlock_congr (p q : Config.OorPolicy) (m : Memory) {a n : Nat} (h : a + n ≤ 4096) :
    memReadBlock p m a n = memReadBlock q m a n := by
  induction n generalizing a with
  | zero => rfl
  | succ n ih =>
    have ha : a < 4096 := by omega
    rw [memReadBlock, memReadBlock, memRead, memRead, effectiveAddress_of_lt p ha, effectiveAddress_of_lt q ha,
      ih (by omega)]

theorem memWriteBlock_congr (p q : Config.OorPolicy) (m : Memory) {a : Nat} {bs : List Byte}
    (h : a + bs.length ≤ 4096) : memWriteBlock p m a bs = memWriteBlock q m a bs := by
  induction bs generalizing m a with
  | nil => rfl
  | cons b bs ih =>
    rw [List.length_cons] at h
    have ha : a < 4096 := by omega
    rw [memWriteBlock, memWriteBlock, memWrite, memWrite, effectiveAddress_of_lt p ha,
      effectiveAddress_of_lt q ha, if_pos ha]
    exact ih _ (by omega)

/-- Settles O31: in range no address is reduced, and a key up to 15 is tested before the policy is asked. -/
theorem variantsAgreeInRange : Obligations.VariantsAgreeInRange := by
  refine ⟨fun a n h => ?_, fun m _ _ => memReadBlock_congr _ _ m, fun m _ _ => memWriteBlock_congr _ _ m,
    fun _ _ _ hk => ?_⟩
  · have hin : rangeOk .fault a n = true := (rangeOk_fault a n).2 (.inr h)
    exact ⟨hin.symm, hin⟩
  · unfold keyPressed
    rw [if_pos hk, if_pos hk]

end Sys2Proof.Machine
end

section
/-! PROOF. The draw (DXYN, R202 to R211): the compositor by the pixel rule, and the draw of one sprite twice. -/

namespace Sys2Proof.Machine

/-- Whether the sprite that DXYN draws from `s` has a visible 1-bit at a cell. -/
abbrev drawnPixel (x y : RegIdx) (n : Fin 16) (s : State) (c r : Nat) : Bool :=
  spritePixel s.mem s.i.toNat n.val (s.reg x).toNat (s.reg y).toNat c r

/-- The compositor on the sprite that DXYN reads from `I` on, at the origin `(V[X], V[Y])`. -/
abbrev composed (x y : RegIdx) (n : Fin 16) (s : State) : FrameBuffer × Bool :=
  compose s.fb (bytesFrom s.mem s.i.toNat n.val) (s.reg x).toNat (s.reg y).toNat

/-- What DXYN makes of the state with a sprite's bytes: the composed framebuffer, and VF the collision. -/
abbrev drawSprite (x y : RegIdx) (s : State) (sprite : List Byte) : State :=
  State.setReg { s with fb := (compose s.fb sprite (s.reg x).toNat (s.reg y).toNat).1 } regF
    (flagOf (compose s.fb sprite (s.reg x).toNat (s.reg y).toNat).2)

/-- The state that DXYN leaves when its sprite is in range. -/
abbrev drawn (x y : RegIdx) (n : Fin 16) (s : State) : State :=
  drawSprite x y s (bytesFrom s.mem s.i.toNat n.val)

theorem exec_drw {x y : RegIdx} {n : Fin 16} {s : State} (h : n.val = 0 ∨ s.i.toNat + n.val ≤ 4096) :
    exec (.drw x y n) s = .next (drawn x y n s) :=
  withBlock_in _ s _ h

theorem cell_composed (x y : RegIdx) (n : Fin 16) (s : State) (c r : Nat) :
    (composed x y n s).1.cell c r = (s.fb.cell c r != drawnPixel x y n s c r) := by
  rw [composed, compose, (drawRows_spec _ _ _ _).1, rowsPixel_block]

theorem hit_composed (x y : RegIdx) (n : Fin 16) (s : State) :
    (composed x y n s).2 = true ↔ ∃ c r, s.fb.cell c r = true ∧ drawnPixel x y n s c r = true := by
  rw [composed, compose, (drawRows_spec _ _ _ _).2]
  simp only [rowsPixel_block, Bool.false_eq_true, false_or]

/-- VF ends as 1 when a visible 1-bit fell on a set cell (R208). -/
theorem drawn_vf_one {x y : RegIdx} {n : Fin 16} {s : State}
    (h : ∃ c r, s.fb.cell c r = true ∧ drawnPixel x y n s c r = true) : (drawn x y n s).reg regF = 1 := by
  rw [reg_setReg_self, (hit_composed x y n s).2 h]
  rfl

/-- VF ends as 0 when none did (R208). -/
theorem drawn_vf_zero {x y : RegIdx} {n : Fin 16} {s : State}
    (h : ∀ c r, s.fb.cell c r = true → drawnPixel x y n s c r = false) : (drawn x y n s).reg regF = 0 := by
  have hno : (composed x y n s).2 = false := by
    rw [← Bool.not_eq_true, hit_composed]
    rintro ⟨c, r, hcell, hpixel⟩
    exact Bool.false_ne_true ((h c r hcell).symm.trans hpixel)
  rw [reg_setReg_self, hno]
  rfl

/-- Settles O33: the coordinates are read before VF is written, so the compositor's cells are those of the old
V[X] and V[Y]. -/
theorem drawFollowsPixelRule : Obligations.DrawFollowsPixelRule := fun x y n s hrange =>
  ⟨_, exec_drw hrange, rfl, fun _ hk => reg_setReg_ne _ _ hk, fun c r _ _ => cell_composed x y n s c r,
    drawn_vf_one, drawn_vf_zero⟩

theorem drawnPixel_no_rows (x y : RegIdx) (s : State) (c r : Nat) : drawnPixel x y 0 s c r = false := by
  have hout : ¬ ((s.reg y).toNat ≤ r ∧ r < (s.reg y).toNat + (0 : Fin 16).val) := by simp
  simp only [drawnPixel, spritePixel, Bool.and_eq_false_imp, decide_eq_true_eq]
  exact fun ⟨_, _, _, htop, hbottom, _⟩ => absurd ⟨htop, hbottom⟩ hout

/-- Settles O34: a sprite of no rows has no pixel, so no cell flips and nothing collides. -/
theorem drawOfNoRows : Obligations.DrawOfNoRows := by
  intro x y s
  have hvf : (drawn x y 0 s).reg regF = 0 := drawn_vf_zero fun c r _ => drawnPixel_no_rows x y s c r
  exact ⟨_, exec_drw (.inl rfl), setReg_onlyRegs s regF _, hvf⟩

/-! ## One sprite twice (R211) -/

/-- For X and Y other than F, the first draw leaves the sprite and its place as they were. -/
theorem drawnPixel_drawn {x y : RegIdx} (hx : x ≠ regF) (hy : y ≠ regF) (n : Fin 16) (s : State) (c r : Nat) :
    drawnPixel x y n (drawn x y n s) c r = drawnPixel x y n s c r := by
  simp only [drawnPixel, drawn, drawSprite, setReg_mem, setReg_i, reg_setReg_ne _ _ hx, reg_setReg_ne _ _ hy]
  rfl

theorem fb_drawn_drawn {x y : RegIdx} (hx : x ≠ regF) (hy : y ≠ regF) (n : Fin 16) (s : State) :
    (drawn x y n (drawn x y n s)).fb = s.fb := by
  refine FrameBuffer.ext_cell _ _ fun c r => ?_
  have hfirst : (drawn x y n s).fb.cell c r = (s.fb.cell c r != drawnPixel x y n s c r) :=
    cell_composed x y n s c r
  have hsecond : (drawn x y n (drawn x y n s)).fb.cell c r =
      ((drawn x y n s).fb.cell c r != drawnPixel x y n (drawn x y n s) c r) :=
    cell_composed x y n (drawn x y n s) c r
  rw [hsecond, hfirst, drawnPixel_drawn hx hy]
  cases drawnPixel x y n s c r <;> simp

/-- Under a visible 1-bit, a cell is set after the first draw exactly when it was unset before. -/
theorem cell_drawn_of_pixel {x y : RegIdx} {n : Fin 16} {s : State} {c r : Nat}
    (hpixel : drawnPixel x y n s c r = true) : (drawn x y n s).fb.cell c r = !s.fb.cell c r := by
  have hcell : (drawn x y n s).fb.cell c r = (s.fb.cell c r != drawnPixel x y n s c r) :=
    cell_composed x y n s c r
  rw [hcell, hpixel, Bool.bne_true]

/-- Settles O35: both draws flip the same cells, and the second collides where the first set a cell. -/
theorem drawTwiceRestores : Obligations.DrawTwiceRestores := by
  intro x y n s hx hy hrange
  refine ⟨_, _, exec_drw hrange, exec_drw (s := drawn x y n s) hrange, fb_drawn_drawn hx hy n s,
    fun ⟨c, r, hcell, hpixel⟩ => drawn_vf_one ⟨c, r, ?_, ?_⟩, fun hnone => drawn_vf_zero fun c r hcell => ?_⟩
  · rw [cell_drawn_of_pixel hpixel, hcell]; rfl
  · rw [drawnPixel_drawn hx hy]; exact hpixel
  · rw [drawnPixel_drawn hx hy]
    by_contra hpixel
    rw [Bool.not_eq_false] at hpixel
    rw [cell_drawn_of_pixel hpixel, Bool.not_eq_true'] at hcell
    exact Bool.false_ne_true ((hnone c r hcell).symm.trans hpixel)

end Sys2Proof.Machine
end

section
/-! PROOF. The step contract (R110 to R118): the phases of a due Step, its errors, the delay timer, and the Step at an
idle loop (R316). -/

namespace Sys2Proof.Machine

/-! ## The start of a Step and its timer phase -/

/-- The timer phase reads none of the fields that the start of a Step writes. -/
theorem timerPhase_stepStart (now ticks : Nat) (s : State) (rest : List HostCall) :
    timerPhase now ticks (s.stepStart now rest) =
      { timerPhase now ticks s with
        pending := rest, reply := .ok, hostCalls := s.hostCalls + 1, hostNow := now } := by
  unfold timerPhase
  split <;> rfl

theorem step_due_waiting {s : State} {now ticks : Nat} {rest : List HostCall} (hdue : s.StepDue now ticks rest)
    (hwait : s.runState = .waitingForKey) : step s = raise .invalidState (s.stepStart now rest) :=
  (step_due s now ticks rest hdue).trans (stepPhases_waiting _ now ticks hwait)

/-- A due Step whose fetch would pass the end of Memory is its timer phase and the error (R114). -/
theorem step_due_out_of_range {s : State} {now ticks : Nat} {rest : List HostCall}
    (hdue : s.StepDue now ticks rest) (hrun : s.runState = .running) (hpc : s.pc.toNat + 2 > 4096) :
    step s = raise (.addressOutOfRange s.pc) (timerPhase now ticks (s.stepStart now rest)) := by
  rw [step_due_running hdue hrun, fetchAndExecute_eq, timerPhase_pc, if_pos hpc]

/-- Settles O5: phase 0, then the timer phase, the fetch with its range, the advance, and the decoded word. -/
theorem stepContract : Obligations.StepContract := by
  intro s now ticks rest hdue
  rcases s.runState.running_or_waiting with hrun | hwait
  · rw [if_neg (by rw [hrun]; exact nofun)]
    show step s =
      if s.pc.toNat + 2 > 4096 then
        raise (.addressOutOfRange s.pc) (timerPhase now ticks (s.stepStart now rest))
      else _
    by_cases hpc : s.pc.toNat + 2 > 4096
    · rw [if_pos hpc, step_due_out_of_range hdue hrun hpc]
    · have hadvance : (timerPhase now ticks (s.stepStart now rest)).advance =
          { timerPhase now ticks (s.stepStart now rest) with pc := s.pc + 2 } := by
        rw [State.advance, timerPhase_pc]
      rw [if_neg hpc, step_due_fetches hdue hrun (not_lt.1 hpc), hadvance]
      rfl
  · rw [if_pos hwait, step_due_waiting hdue hwait]

/-- Settles O6: a Step at a free time is the one that the host would have called then. -/
theorem stepRunsDecodedInstruction : Obligations.StepRunsDecodedInstruction := by
  intro s i hrun hpc hdecode _
  refine ⟨fun now ticks rest hdue => ?_, fun hnone => ?_⟩
  · exact (step_due_fetches hdue hrun hpc).trans (decodeAndExecute_of_some hdecode _)
  · obtain ⟨hdue, hstep⟩ := step_free_eq_due hnone
    exact (hstep.trans (step_due_fetches hdue hrun hpc)).trans (decodeAndExecute_of_some hdecode _)

/-- Settles O7: the error is raised before the timer phase. -/
theorem stepWhileWaitingChangesNothing : Obligations.StepWhileWaitingChangesNothing :=
  fun _ _ _ _ hdue hwait => ⟨_, step_due_waiting hdue hwait, rfl, rfl, rfl⟩

/-- Settles O8: the error is raised after the timer phase and before the advance. -/
theorem fetchPastMemoryEnd : Obligations.FetchPastMemoryEnd := by
  intro s now ticks rest hdue hrun hpc
  have hstep := step_due_out_of_range hdue hrun (by omega)
  rw [timerPhase_stepStart] at hstep
  exact ⟨_, hstep, rfl, rfl, congrArg _ (timerPhase_errors now ticks s)⟩

/-! ## The delay timer (R240, R241) -/

/-- After the timer phase only FX15 writes DT, and nothing writes TICK_REF. -/
theorem fetchAndExecute_keeps_timer {s t : State} (hno : ∀ x, decodeWord s.wordAtPc ≠ some (.ldDtVx x))
    (h : fetchAndExecute s = .next t) : t.dt = s.dt ∧ t.tickRef = s.tickRef := by
  rcases fetchAndExecute_next_cases h with ⟨-, rfl⟩ | ⟨-, -, rfl⟩ | ⟨i, -, hdecode, hexec⟩
  · exact ⟨rfl, rfl⟩
  · exact ⟨rfl, rfl⟩
  · obtain ⟨-, -, -, -, -, -, -, hwriter, -⟩ := onlyTheWritersWrite i s.advance t hexec
    obtain ⟨-, htick, -⟩ := exec_host hexec
    refine ⟨?_, htick⟩
    by_contra hne
    obtain ⟨x, rfl⟩ := hwriter hne
    exact hno x hdecode

/-- Settles O10: the timer phase ticks once or not at all, and the rest of the Step keeps what it left. -/
theorem delayTimerDropsByAtMostOne : Obligations.DelayTimerDropsByAtMostOne := by
  intro s t now ticks rest hdue h hno
  rcases s.runState.running_or_waiting with hrun | hwait
  · rw [step_due_running hdue hrun] at h
    obtain ⟨hdt, htick⟩ := fetchAndExecute_keeps_timer
      (by rw [State.wordAtPc, timerPhase_mem, timerPhase_pc]; exact hno) h
    rw [hdt, htick, timerPhase_stepStart]
    rcases timerPhase_cases now ticks s with ⟨hpos, hdrop, hticks⟩ | ⟨-, hstays⟩
    · rw [hticks]
      refine .inr ⟨hpos, hdrop, ?_, rfl⟩
      bv_omega
    · rw [hstays]; exact .inl ⟨rfl, rfl⟩
  · cases (step_due_waiting hdue hwait).symm.trans h
    exact .inl ⟨rfl, rfl⟩

/-! ## The idle loop (R316) -/

theorem atIdleLoop_iff (s : State) :
    s.atIdleLoop = true ↔ s.runState = .running ∧
      ∃ nnn, (fetchWord s).bind decodeWord = some (.jp nnn) ∧ absoluteAddress nnn = s.pc := by
  unfold State.atIdleLoop
  split
  · simp_all
  · rename_i hother
    refine iff_of_false Bool.false_ne_true ?_
    rintro ⟨hrun, nnn, hjp, -⟩
    exact hother nnn hrun hjp

/-- At an idle loop the jump is fetched in range. -/
theorem fetches_of_atIdleLoop {s : State} (h : s.atIdleLoop = true) :
    s.runState = .running ∧ s.pc.toNat + 2 ≤ 4096 ∧
      ∃ nnn, decodeWord s.wordAtPc = some (.jp nnn) ∧ absoluteAddress nnn = s.pc := by
  obtain ⟨hrun, nnn, hjp, hpc⟩ := (atIdleLoop_iff s).1 h
  have hrange : s.pc.toNat + 2 ≤ 4096 := by
    by_contra hout
    rw [fetchWord_out s (not_le.1 hout)] at hjp
    cases hjp
  rw [fetchWord_in s hrange] at hjp
  exact ⟨hrun, hrange, nnn, hjp, hpc⟩

/-- A jump to the address that it stands at undoes the advance. -/
theorem exec_jp_self {nnn : BitVec 12} {s : State} (h : absoluteAddress nnn = s.pc) :
    exec (.jp nnn) s.advance = .next s := by
  rw [exec_jp, h]
  rfl

/-- A Step at an idle loop is its timer phase and nothing more. -/
theorem step_due_atIdleLoop {s : State} {now ticks : Nat} {rest : List HostCall}
    (hdue : s.StepDue now ticks rest) (h : s.atIdleLoop = true) :
    step s = .next (timerPhase now ticks (s.stepStart now rest)) := by
  obtain ⟨hrun, hrange, nnn, hdecode, hpc⟩ := fetches_of_atIdleLoop h
  rw [step_due_fetches hdue hrun hrange, decodeAndExecute_of_some hdecode]
  exact exec_jp_self (hpc.trans (timerPhase_pc now ticks (s.stepStart now rest)).symm)

/-- Settles O60: the timer phase leaves PC, Memory and STATE, so the jump stands at PC again. -/
theorem idleLoopOnlyTicks : Obligations.IdleLoopOnlyTicks := by
  intro s now ticks rest hdue hidle
  refine ⟨_, step_due_atIdleLoop hdue hidle, ?_, timerPhase_errors now ticks _, ?_⟩
  · rw [timerPhase_stepStart]
  · rw [atIdleLoop_iff] at hidle ⊢
    rw [fetchWord_congr (timerPhase_mem now ticks _) (timerPhase_pc now ticks _), timerPhase_runState,
      timerPhase_pc]
    exact hidle

end Sys2Proof.Machine
end

section
/-! PROOF. ST, the timers, the key tests and the ports (R231 to R234, R245, R246). -/

namespace Sys2Proof.Machine

/-! ## No instruction reads ST (R36, R120) -/

theorem skipIf_withSt (c : Bool) (s : State) (b : Byte) :
    State.skipIf c { s with st := b } = { State.skipIf c s with st := b } := by
  cases c <;> rfl

theorem storeBlock_withSt {bs : List Byte} {s t : State} (b : Byte) (h : storeBlock bs s = .next t) :
    storeBlock bs { s with st := b } = .next { t with st := b } := by
  by_cases hin : bs.length = 0 ∨ s.i.toNat + bs.length ≤ 4096
  · cases (storeBlock_in bs s hin).symm.trans h
    exact storeBlock_in bs { s with st := b } hin
  · cases (storeBlock_out bs s hin).symm.trans h
    exact storeBlock_out bs { s with st := b } hin

/-- A block read does not see ST, as long as what is done with its bytes does not. -/
theorem withBlock_withSt {n : Nat} {s t : State} (b : Byte) (use : State → List Byte → State)
    (huse : ∀ bytes, use { s with st := b } bytes = { use s bytes with st := b })
    (h : withBlock n s (fun bytes => .next (use s bytes)) = .next t) :
    withBlock n { s with st := b } (fun bytes => .next (use { s with st := b } bytes)) =
      .next { t with st := b } := by
  by_cases hin : n = 0 ∨ s.i.toNat + n ≤ 4096
  · cases (withBlock_in n s _ hin).symm.trans h
    rw [withBlock_in n { s with st := b } _ hin, huse]
  · cases (withBlock_out n s _ hin).symm.trans h
    exact withBlock_out n { s with st := b } _ hin

theorem exec_ret_withSt {s t : State} (b : Byte) (h : exec .ret s = .next t) :
    exec .ret { s with st := b } = .next { t with st := b } := by
  by_cases h0 : s.sp = 0
  · cases (exec_ret_of_sp_zero h0).symm.trans h
    exact exec_ret_of_sp_zero (s := { s with st := b }) h0
  by_cases h16 : s.sp ≤ 16
  · cases (exec_ret_of_pos (Nat.pos_of_ne_zero h0) h16).symm.trans h
    exact exec_ret_of_pos (s := { s with st := b }) (Nat.pos_of_ne_zero h0) h16
  · cases (exec_ret_of_gt (not_le.1 h16)).symm.trans h

theorem exec_call_withSt {nnn : BitVec 12} {s t : State} (b : Byte) (h : exec (.call nnn) s = .next t) :
    exec (.call nnn) { s with st := b } = .next { t with st := b } := by
  rcases lt_trichotomy s.sp 16 with hlt | hfull | hgt
  · cases (exec_call_of_lt nnn hlt).symm.trans h
    exact exec_call_of_lt nnn (s := { s with st := b }) hlt
  · cases (exec_call_of_full nnn hfull).symm.trans h
    exact exec_call_of_full nnn (s := { s with st := b }) hfull
  · cases (exec_call_of_gt nnn hgt).symm.trans h

theorem exec_ldStVx (x : RegIdx) (s : State) : exec (.ldStVx x) s = .next { s with st := s.reg x } := rfl

/-- Settles O46: every meaning but that of FX18 carries ST through, and FX18 overwrites it. -/
theorem soundTimerIsNeverRead : Obligations.SoundTimerIsNeverRead := by
  intro i s t b h
  cases i
  case ldStVx x => exact .inr ⟨x, rfl, h⟩
  case ret => exact .inl (exec_ret_withSt b h)
  case call => exact .inl (exec_call_withSt b h)
  case ldB | ldMemVx => exact .inl (storeBlock_withSt b h)
  case drw x y n => exact .inl (withBlock_withSt b (drawSprite x y) (fun _ => rfl) h)
  case ldVxMem => exact .inl (withBlock_withSt b State.setRegs (fun _ => rfl) h)
  case skp x =>
    cases (exec_skp x s).symm.trans h
    exact .inl ((exec_skp x _).trans (congrArg _ (skipIf_withSt _ s b)))
  case sknp x =>
    cases (exec_sknp x s).symm.trans h
    exact .inl ((exec_sknp x _).trans (congrArg _ (skipIf_withSt _ s b)))
  case seImm | sneImm | seReg | sneReg =>
    cases h
    exact .inl (congrArg _ (skipIf_withSt _ s b))
  all_goals cases h; exact .inl rfl

/-! ## The timer writes and the key tests -/

theorem exec_ldDtVx (x : RegIdx) (s : State) : exec (.ldDtVx x) s = .next { s with dt := s.reg x } := rfl

/-- Settles O37: FX15 leaves TICK_REF, for TICK_RESET_ON_FX15 is off. -/
theorem writesTimers : Obligations.WritesTimers := fun x s =>
  ⟨⟨_, exec_ldDtVx x s, rfl⟩, ⟨_, exec_ldStVx x s, rfl⟩, onRow_row (.ldDtVx x), onRow_row (.ldStVx x)⟩

/-- Settles O38: each is one skip on the test of the key, EXA1 on its negation. -/
theorem skipsOnKey : Obligations.SkipsOnKey := by
  intro x s
  refine ⟨_, _, exec_skp x s, skipIf_onlyPc s _, exec_sknp x s, skipIf_onlyPc s _, fun hpressed => ?_,
    fun hnot => ?_, onRow_row (.skp x), onRow_row (.sknp x)⟩
  · obtain ⟨hkey, hbit⟩ := hpressed
    simp [hkey, hbit]
  · rw [← decide_eq_true_iff (p := (s.reg x).toNat ≤ 15), ← Bool.and_eq_true, Bool.not_eq_true] at hnot
    rw [hnot]
    simp

/-! ## The ports -/

/-- DecST stops at 0 (D23). -/
theorem decSt_eq (s : State) : decSt s = .next { s with st := if s.st = 0 then 0 else s.st - 1 } := by
  unfold decSt
  by_cases h : s.st = 0
  · rw [if_pos h, if_pos h, ← h]
  · rw [if_neg h, if_neg h]

theorem decremented_toNat (b : Byte) : (if b = 0 then 0 else b - 1 : Byte).toNat = b.toNat - 1 := by
  by_cases h : b = 0
  · rw [if_pos h, h]; rfl
  · rw [if_neg h]
    bv_omega

/-- Settles O44: DecST writes ST, and the reads write the reply. -/
theorem portsReadAndDecrement : Obligations.PortsReadAndDecrement := by
  intro s rest
  refine ⟨⟨_, (step_pending _ .decSt rest rfl).trans (decSt_eq _), rfl, decremented_toNat s.st⟩,
    ⟨_, step_pending _ .readSt rest rfl, rfl, rfl⟩, ⟨_, step_pending _ .exportFrame rest rfl, rfl, rfl⟩⟩

/-- Settles O45: the two serial orders (D24). -/
theorem soundTimerRaceIsSerial : Obligations.SoundTimerRaceIsSerial := by
  intro x s rest
  refine ⟨⟨_, _, exec_ldStVx x s, (step_pending _ .decSt rest rfl).trans (decSt_eq _), ?_⟩,
    ⟨_, _, (step_pending _ .decSt rest rfl).trans (decSt_eq _), exec_ldStVx x _, rfl⟩⟩
  exact decremented_toNat (s.reg x)

end Sys2Proof.Machine
end

section
/-! PROOF. Load and the state after creation (R300 to R304). -/

namespace Sys2Proof.Machine

/-! ## Memory after a Load -/

theorem byteAt_nil (a : Nat) : Memory.byteAt [] a = font.getD a 0 := rfl

/-- Behind the font's 80 bytes an unlisted address reads as 0. -/
theorem font_getD_of_le {a : Nat} (h : 80 ≤ a) : font.getD a 0 = 0 := List.getD_eq_default _ _ h

/-- A byte outside the program is as creation leaves it. -/
theorem byteAt_loaded_of_not {bytes : List Byte} {a : Nat} (h : ¬ (512 ≤ a ∧ a < 512 + bytes.length)) :
    (Memory.setBytes [] Config.programBase bytes).byteAt a = font.getD a 0 := by
  rw [byteAt_setBytes, if_neg h, byteAt_nil]

/-! ## Load -/

/-- Settles O47: the program is written at 512 into the Memory of creation, and every register is reset. -/
theorem loadResetsEverything : Obligations.LoadResetsEverything := by
  intro s bytes now rest hpending hnow hfits
  have hstep := (step_pending s _ rest hpending).trans
    (load_of_fits hnow ((programFits_iff bytes).2 hfits))
  refine ⟨_, hstep, rfl, rfl, rfl, fun a ha => ?_, fun a hlow hhigh => ?_, fun k hk => ?_, fun a hlow _ => ?_⟩
  · exact byteAt_loaded_of_not (by omega)
  · exact (byteAt_loaded_of_not (by omega)).trans (font_getD_of_le hlow)
  · exact byteAt_setBytes_add [] Config.programBase hk
  · exact (byteAt_loaded_of_not (by omega)).trans (font_getD_of_le (by omega))

/-- Settles O48: the size check fails and nothing of the block is written. -/
theorem loadTooLargeChangesNothing : Obligations.LoadTooLargeChangesNothing := by
  intro s bytes now rest hpending hnow hlarge
  have hfits : programFits bytes = false := by
    rw [← Bool.not_eq_true, programFits_iff]
    exact hlarge.not_ge
  exact ⟨_, (step_pending s _ rest hpending).trans (load_of_not_fits hnow hfits), rfl, rfl, rfl⟩

/-! ## Creation -/

theorem wordAtPc_reset : State.reset.wordAtPc = 0 := by decide

/-- Settles O49: each element of the reset state, and Memory as the font and zeros. -/
theorem resetLeavesDecidedValues : Obligations.ResetLeavesDecidedValues :=
  ⟨fun x => Vector.getElem_replicate x.isLt, rfl, rfl, rfl, fun k hk => by simp [State.reset, hk], rfl, rfl,
    cell_empty, rfl, rfl, rfl, rfl, fun a _ => byteAt_nil a, fun _ ha => font_getD_of_le ha⟩

/-- Settles O50: an empty program fits and writes nothing, and the first word at 0x200 is 0, which is no
instruction. -/
theorem creationIsLoadOfEmptyProgram : Obligations.CreationIsLoadOfEmptyProgram := by
  constructor
  · intro s rest hnow
    exact ⟨_, (step_pending _ (.load [] 0) rest rfl).trans (load_of_fits hnow.le rfl), rfl⟩
  · obtain ⟨hdue, hstep⟩ := step_free_eq_due (s := State.reset) rfl
    have hdecode : decodeWord State.reset.wordAtPc = none := by rw [wordAtPc_reset]; decide
    have hrange : State.reset.pc.toNat + 2 ≤ 4096 := by decide
    have hfetch := (step_due_fetches hdue rfl hrange).trans (decodeAndExecute_of_none hdecode _)
    refine ⟨_, hstep.trans hfetch, congrArg _ (congrArg _ wordAtPc_reset), ?_⟩
    show (timerPhase _ _ _).pc + 2 = _
    rw [timerPhase_pc]
    rfl

end Sys2Proof.Machine
end
